-- ==== Sys2Proof/Word.lean ====
section
/-! DEFINITION. The block's units of data (00_scope R15, R17): bytes, 32-bit words and byte strings of a fixed length. -/

namespace Sys2Proof

/-- A byte, 8 bits (00_scope R15). -/
abbrev Byte := BitVec 8

/-- A word, 32 bits: cipher word, round key, mask, SHA-256 word (00_scope R11, R15). -/
abbrev Word := BitVec 32

/-- A byte string of exactly `n` bytes, first byte first (00_scope R17). -/
abbrev Bytes (n : Nat) := Vector Byte n

end Sys2Proof
end

