-- ==== Sys2Proof/Config.lean ====
section
/-! DEFINITION. What the hardware fixes once: the constants of 00_scope R11, the default of the parameter `Z_SEQ` (R12),
and the free values of what reset leaves unspecified (10_state R38). -/

namespace Sys2Proof.Config

/-- `SEED_LENGTH`: bytes of `V` and of `C` (R11). -/
abbrev seedLength : Nat := 55
/-- `ROUNDS` (R11). -/
abbrev rounds : Nat := 44
/-- `MASK_WORDS` = `ROUNDS` + 2 (R11). -/
abbrev maskWords : Nat := rounds + 2
/-- `MASK_BYTES`: bytes drawn from the generator by one `ENCRYPT` (R11). -/
abbrev maskBytes : Nat := maskWords * 4
/-- Largest output length `hash_df` is defined for, 255 * 32 bytes (40_primitives R112, U5). -/
abbrev hashDfLimit : Nat := 8160

/-- The tag hashed before `V` when `C` is derived (R11, 10_state R21). -/
def tagSeeding : Byte := 0x00
/-- The tag hashed before `V` in the state update (R11, 10_state R21). -/
def tagGeneration : Byte := 0x03
/-- The constant XORed into every expanded round key (R11, 42_cipher_commands R162). -/
def keyScheduleConstant : Word := 0x00000003

/-- The spec's default for the parameter `Z_SEQ` (R12, D12). The machine reads the parameter from `State.zSeq`, so a
statement over every state holds for every value of it (log 1). DESIGN CHOICE, safe. -/
def zSeqDefault : BitVec 64 := 0x36EB19781229CD0F

/-- `V` after the `n`-th reset: unspecified (10_state R38), a free value (log 2). DESIGN CHOICE. -/
opaque resetV : Nat → Bytes 55
/-- `C` after the `n`-th reset: unspecified (10_state R38), a free value (log 2). DESIGN CHOICE. -/
opaque resetC : Nat → Bytes 55
/-- `GC` after the `n`-th reset: unspecified (10_state R38), a free value (log 2). DESIGN CHOICE. -/
opaque resetGc : Nat → BitVec 64
/-- `KS[0..43]` after the `n`-th reset: unspecified (10_state R38), a free value (log 2). DESIGN CHOICE. -/
opaque resetKs : Nat → Vector Word 44

end Sys2Proof.Config
end

