-- ==== Sys2Proof/Syntax.lean ====
section
/-! DEFINITION. The four commands (30_encoding R70, R72), one constructor per row of `spec/opcode_table.json`. -/

namespace Sys2Proof

/-- A command with its operand. Operand sizes are part of the type, because the opcode fixes them and an operand of
another size cannot be expressed (30_encoding R77, U3; log 15). An illegal opcode byte is no row of the table and no
constructor: the decoder names it and `step` reports it (R78; log 16). -/
inductive Instr where
  /-- `SEED entropy_and_nonce`, format S (R73). -/
  | seed (material : Bytes 48)
  /-- `FILL length`, format F (R74); `length` is unsigned. -/
  | fill (length : BitVec 32)
  /-- `SET_KEY key`, format K (R75). -/
  | setKey (key : Bytes 16)
  /-- `ENCRYPT plaintext`, format E (R76). -/
  | encrypt (plaintext : Bytes 8)
  deriving DecidableEq, Repr

end Sys2Proof
end

