-- ==== Sys2Proof/Machine/Operands.lean ====
section
/-! DEFINITION. Operand forms: byte strings as integers and back (00_scope R17), the word operators (R18), the opcode map
and the operand bytes of each command (30_encoding R72 to R76). Everything is big-endian (20_memory R54). -/

namespace Sys2Proof.Machine

/-- `int(s)`: the unsigned integer of a byte string, `s[0]` most significant; 0 for the empty string (R17). -/
def intOf : List Byte → Nat
  | [] => 0
  | b :: s => b.toNat * 256 ^ s.length + intOf s

/-- `BE_n(v)`: the `n`-byte big-endian string of `v` (R17, for `0 <= v < 2^(8n)`). DESIGN CHOICE: the spec gives nothing for a
larger `v`, and the model keeps its `n` low bytes; safe for the block (log 21). -/
def be : Nat → Nat → List Byte
  | 0, _ => []
  | n + 1, v => BitVec.ofNat 8 (v / 256 ^ n) :: be n v

/-- A list of `n` bytes as a byte string of length `n`. -/
def bytesOf {n : Nat} (s : List Byte) (h : s.length = n) : Bytes n := ⟨s.toArray, by simpa using h⟩

theorem be_length (n v : Nat) : (be n v).length = n := by
  induction n with
  | zero => rfl
  | succ n ih => simp [be, ih]

/-- `BE_n(v)` with its length in the type. -/
def beBytes (n v : Nat) : Bytes n := bytesOf (be n v) (be_length n v)

/-- `s[i..j]`: bytes i to j inclusive (R17). DESIGN CHOICE: past the end of `s` it is the bytes that are there (log 21). -/
def slice (s : List Byte) (i j : Nat) : List Byte := (s.drop i).take (j + 1 - i)

/-- The `j`-th 32-bit word of a byte string, `int(s[4j..4j+3])`, big-endian (20_memory R54, 42_cipher_commands R164).
DESIGN CHOICE: past the end of the string it is the integer of the bytes that are there (log 21). -/
def wordAt (s : List Byte) (j : Nat) : Word := BitVec.ofNat 32 (intOf (slice s (4 * j) (4 * j + 3)))

/-- `zeros(n)` (R17). -/
def zeros (n : Nat) : List Byte := List.replicate n 0

/-- `rotl(w, n)` for `0 < n < 32` (R18). DESIGN CHOICE: for another `n` it is the same two shifts (log 21). -/
def rotl (w : Word) (n : Nat) : Word := (w <<< n) ||| (w >>> (32 - n))

/-- `rotr(w, n) = rotl(w, 32-n)` for `0 < n < 32` (R18). DESIGN CHOICE: the same for another `n` (log 21). -/
def rotr (w : Word) (n : Nat) : Word := rotl w (32 - n)

/-- Opcode of `SEED` (30_encoding R72). -/
def opSeed : Byte := 0x01
/-- Opcode of `FILL` (30_encoding R72). -/
def opFill : Byte := 0x02
/-- Opcode of `SET_KEY` (30_encoding R72). -/
def opSetKey : Byte := 0x03
/-- Opcode of `ENCRYPT` (30_encoding R72). -/
def opEncrypt : Byte := 0x04

/-- How many operand bytes follow an opcode byte; `none` for an illegal opcode (30_encoding R71, R72, R78). -/
def operandLength (op : Byte) : Option Nat :=
  if op = opSeed then some 48
  else if op = opFill then some 4
  else if op = opSetKey then some 16
  else if op = opEncrypt then some 8
  else none

/-- Total length of the command whose first byte is `op`; an illegal opcode is a one-byte command (R72, R78). -/
def commandLength (op : Byte) : Nat := 1 + (operandLength op).getD 0

/-- The longest command, `SEED`: 49 bytes (R72). -/
def longestCommand : Nat := 49

/-- Byte 0 of a command (R72). -/
def opcodeOf : Instr → Byte
  | .seed _ => opSeed
  | .fill _ => opFill
  | .setKey _ => opSetKey
  | .encrypt _ => opEncrypt

/-- The operand field of a command, `Operand(0)` first (R73 to R76). -/
def operandOf : Instr → List Byte
  | .seed material => material.toList
  | .fill length => be 4 length.toNat
  | .setKey key => key.toList
  | .encrypt plaintext => plaintext.toList

/-- The length operand of `FILL`: `int(Operand(0..3))` (R74). -/
def lengthOperand (operand : Bytes 4) : BitVec 32 := BitVec.ofNat 32 (intOf operand.toList)

/-- The operand of `n` bytes at the head of a byte string and what follows it; `none` when fewer bytes are there
(20_memory R62). -/
def takeOperand (n : Nat) (s : List Byte) : Option (Bytes n × List Byte) :=
  if h : n ≤ s.length then some (bytesOf (s.take n) (by simp [h]), s.drop n) else none

end Sys2Proof.Machine
end

