-- ==== Sys2Proof/WellFormed.lean ====
section
/-! DEFINITION. When a byte string is one whole command (30_encoding R71 to R78). Operand values are never ill-formed
(R79) and operand sizes are in the type of `Instr`, so every `Instr` is well-formed; what can be ill-formed is the raw
bytes a host cuts into an opcode and an operand field. -/

namespace Sys2Proof

/-- An opcode byte and an operand field as a host might pair them, before any check. -/
structure RawCommand where
  opcode : Byte
  operand : List Byte
  deriving DecidableEq, Repr

/-- The opcode is one of the map of R72 (R78 otherwise). -/
def RawCommand.legalOpcode (r : RawCommand) : Bool := (Machine.operandLength r.opcode).isSome

/-- The operand field has the size the opcode fixes (R71, R77). -/
def RawCommand.rightSize (r : RawCommand) : Bool := Machine.operandLength r.opcode == some r.operand.length

/-- Both checks. -/
def RawCommand.wf (r : RawCommand) : Bool := r.legalOpcode && r.rightSize

/-- The raw form of a command. -/
def Instr.raw (i : Instr) : RawCommand := ⟨Machine.opcodeOf i, Machine.operandOf i⟩

/-- A command is well-formed when its raw form is. -/
def Instr.wf (i : Instr) : Bool := i.raw.wf

end Sys2Proof
end

