-- ==== Sys2Proof/Decode.lean ====
section
/-! DEFINITION. Cutting the command stream into commands (30_encoding R71, R78; 20_memory R62) and the encoder beside it
(R72 to R76). The decoder is total on byte lists. -/

namespace Sys2Proof

open Machine

/-- What stands at the head of the command stream (R78: "every byte string decodes, from its head, to a legal command, an
illegal one-byte command, or incomplete"). -/
inductive Decoded where
  /-- A legal command, and the bytes behind it. -/
  | command (i : Instr) (rest : List Byte)
  /-- An illegal opcode byte, which is a command of one byte (R78), and the bytes behind it. -/
  | illegal (opcode : Byte) (rest : List Byte)
  /-- Nothing, or a legal opcode whose operand has not fully arrived (20_memory R62). -/
  | incomplete
  deriving DecidableEq, Repr

/-- The command that an operand field of `n` bytes makes, or `incomplete` while bytes are missing (R71, 20_memory R62). -/
def decodeOperand (n : Nat) (make : Bytes n → Instr) (s : List Byte) : Decoded :=
  match takeOperand n s with
  | some (operand, rest) => .command (make operand) rest
  | none => .incomplete

/-- The head of the command stream (R71, R72, R78). -/
def decode : List Byte → Decoded
  | [] => .incomplete
  | op :: s =>
    if op = opSeed then decodeOperand 48 .seed s
    else if op = opFill then decodeOperand 4 (fun operand => .fill (lengthOperand operand)) s
    else if op = opSetKey then decodeOperand 16 .setKey s
    else if op = opEncrypt then decodeOperand 8 .encrypt s
    else .illegal op s

/-- The bytes of a command: the opcode byte, then the operand field (R71 to R76). -/
def encode (i : Instr) : List Byte := opcodeOf i :: operandOf i

/-- The bytes of a number whose byte 0 is its least significant byte, the numbering of `spec/opcode_table.json`: `n`
bytes, byte 0 first. -/
def tableBytes : Nat → Nat → List Byte
  | 0, _ => []
  | n + 1, w => BitVec.ofNat 8 w :: tableBytes n (w / 256)

/-- The command whose bits are `w` in the table's numbering: the bits from `nbits` on are 0, and exactly the bytes that
the first byte says the command has are given (log 17). -/
def tableCommand (nbits w : Nat) : List Byte :=
  let all := tableBytes longestCommand (w % 2 ^ nbits)
  all.take (commandLength (all.headD 0))

/-- The instruction the decoder reads from a command whose bits are `w` (log 17). -/
def decodeTableWord (nbits w : Nat) : Option Instr :=
  match decode (tableCommand nbits w) with
  | .command i _ => some i
  | .illegal _ _ => none
  | .incomplete => none

end Sys2Proof
end

