-- ==== Sys2Proof/Machine/Sha256.lean ====
section
/-! DEFINITION. SHA-256 (40_primitives R100 to R106), from the text the spec gives (its general-knowledge passage G1; log 9). -/

namespace Sys2Proof.Machine

/-- `K[0..63]` (R101). -/
def shaK : List Word :=
  [0x428a2f98, 0x71374491, 0xb5c0fbcf, 0xe9b5dba5, 0x3956c25b, 0x59f111f1, 0x923f82a4, 0xab1c5ed5] ++
  [0xd807aa98, 0x12835b01, 0x243185be, 0x550c7dc3, 0x72be5d74, 0x80deb1fe, 0x9bdc06a7, 0xc19bf174] ++
  [0xe49b69c1, 0xefbe4786, 0x0fc19dc6, 0x240ca1cc, 0x2de92c6f, 0x4a7484aa, 0x5cb0a9dc, 0x76f988da] ++
  [0x983e5152, 0xa831c66d, 0xb00327c8, 0xbf597fc7, 0xc6e00bf3, 0xd5a79147, 0x06ca6351, 0x14292967] ++
  [0x27b70a85, 0x2e1b2138, 0x4d2c6dfc, 0x53380d13, 0x650a7354, 0x766a0abb, 0x81c2c92e, 0x92722c85] ++
  [0xa2bfe8a1, 0xa81a664b, 0xc24b8b70, 0xc76c51a3, 0xd192e819, 0xd6990624, 0xf40e3585, 0x106aa070] ++
  [0x19a4c116, 0x1e376c08, 0x2748774c, 0x34b0bcb5, 0x391c0cb3, 0x4ed8aa4a, 0x5b9cca4f, 0x682e6ff3] ++
  [0x748f82ee, 0x78a5636f, 0x84c87814, 0x8cc70208, 0x90befffa, 0xa4506ceb, 0xbef9a3f7, 0xc67178f2]

/-- Eight words: the hash value `Hh[0..7]` between blocks, and the working variables `a..h` inside one (R105). -/
structure ShaWords where
  a : Word
  b : Word
  c : Word
  d : Word
  e : Word
  f : Word
  g : Word
  h : Word
  deriving DecidableEq, Repr

/-- `IV[0..7]` (R101). -/
def shaIv : ShaWords where
  a := 0x6a09e667
  b := 0xbb67ae85
  c := 0x3c6ef372
  d := 0xa54ff53a
  e := 0x510e527f
  f := 0x9b05688c
  g := 0x1f83d9ab
  h := 0x5be0cd19

/-- `Ch` (R103). -/
def shaCh (x y z : Word) : Word := (x &&& y) ^^^ (~~~x &&& z)
/-- `Maj` (R103). -/
def shaMaj (x y z : Word) : Word := (x &&& y) ^^^ (x &&& z) ^^^ (y &&& z)
/-- `BSIG0` (R103). -/
def shaBsig0 (x : Word) : Word := rotr x 2 ^^^ rotr x 13 ^^^ rotr x 22
/-- `BSIG1` (R103). -/
def shaBsig1 (x : Word) : Word := rotr x 6 ^^^ rotr x 11 ^^^ rotr x 25
/-- `SSIG0` (R103). -/
def shaSsig0 (x : Word) : Word := rotr x 7 ^^^ rotr x 18 ^^^ (x >>> 3)
/-- `SSIG1` (R103). -/
def shaSsig1 (x : Word) : Word := rotr x 17 ^^^ rotr x 19 ^^^ (x >>> 10)

/-- The padded message `m || 0x80 || zeros(k) || BE_8(8*len(m))`, `k` least with `(len(m)+1+k) mod 64 = 56` (R102).
DESIGN CHOICE: from `len(m) = 2^61` on the length field is taken modulo 2^64 (R100 and R17 end there; log 11). -/
def shaPad (m : List Byte) : List Byte :=
  m ++ 0x80 :: zeros ((119 - m.length % 64) % 64) ++ be 8 (8 * m.length)

/-- `n` more words of the message schedule in front of those computed so far, the newest first: the next `W[t]` from
`W[t-2]`, `W[t-7]`, `W[t-15]`, `W[t-16]` (R104). DESIGN CHOICE: a word that is not there counts as 0, where the 16 of a block
always are (log 21). -/
def shaExtend : Nat → List Word → List Word
  | 0, newestFirst => newestFirst
  | n + 1, newestFirst =>
    shaExtend n
      ((shaSsig1 (newestFirst.getD 1 0) + newestFirst.getD 6 0 + shaSsig0 (newestFirst.getD 14 0) + newestFirst.getD 15 0)
        :: newestFirst)

/-- `W[0..63]` of one 64-byte block (R102, R104). DESIGN CHOICE: it is defined for lists of other lengths too (log 21). -/
def shaSchedule (block : List Byte) : List Word :=
  (shaExtend 48 ((List.range 16).map (wordAt block)).reverse).reverse

/-- One iteration of the compression loop with `K[t]` and `W[t]` (R105). -/
def shaRound (x : ShaWords) (kw : Word × Word) : ShaWords :=
  let t1 := x.h + shaBsig1 x.e + shaCh x.e x.f x.g + kw.1 + kw.2
  let t2 := shaBsig0 x.a + shaMaj x.a x.b x.c
  { a := t1 + t2, b := x.a, c := x.b, d := x.c, e := x.d + t1, f := x.e, g := x.f, h := x.g }

/-- Wordwise addition modulo 2^32, the end of a block (R105). -/
def shaAdd (x y : ShaWords) : ShaWords where
  a := x.a + y.a
  b := x.b + y.b
  c := x.c + y.c
  d := x.d + y.d
  e := x.e + y.e
  f := x.f + y.f
  g := x.g + y.g
  h := x.h + y.h

/-- The hash value after one more block (R105), of 64 bytes; other lengths are the model's choice (log 21). -/
def shaCompress (hash : ShaWords) (block : List Byte) : ShaWords :=
  shaAdd hash ((shaK.zip (shaSchedule block)).foldl shaRound hash)

/-- The hash value after the first `n` 64-byte blocks of `p` (R105); fewer than `64n` bytes are the model's choice (log 21). -/
def shaBlocks : Nat → ShaWords → List Byte → ShaWords
  | 0, hash, _ => hash
  | n + 1, hash, p => shaBlocks n (shaCompress hash (p.take 64)) (p.drop 64)

/-- `BE_4(Hh[0]) || ... || BE_4(Hh[7])` (R106). -/
def shaDigest (x : ShaWords) : Bytes 32 :=
  bytesOf (be 4 x.a.toNat ++ be 4 x.b.toNat ++ be 4 x.c.toNat ++ be 4 x.d.toNat ++ be 4 x.e.toNat ++ be 4 x.f.toNat
    ++ be 4 x.g.toNat ++ be 4 x.h.toNat) (by simp [be_length])

/-- `SHA256(m)` (R100). The spec bounds `len(m)` by 2^61, which no input of the block comes near (R107).
DESIGN CHOICE: the model hashes longer messages by the same procedure (log 11). -/
def sha256 (m : List Byte) : Bytes 32 :=
  shaDigest (shaBlocks ((shaPad m).length / 64) shaIv (shaPad m))

end Sys2Proof.Machine
end

