-- ==== Sys2Proof/Machine/Drbg.lean ====
section
/-! DEFINITION. The generator's procedures: add_accumulate (40_primitives R110), hash_df (R112), hash_gen (R113). -/

namespace Sys2Proof.Machine

/-- The byte loop of `add_accumulate` on byte strings written LEAST significant byte first: add the bytes and the carry,
keep the low byte, carry the rest; past the end of `b` its bytes are 0; the last carry is dropped (R110). -/
def addBytes : List Byte → List Byte → Nat → List Byte
  | [], _, _ => []
  | a :: as, bs, carry =>
    let s := a.toNat + (bs.headD 0).toNat + carry
    BitVec.ofNat 8 s :: addBytes as bs.tail (s / 256)

theorem addBytes_length (as bs : List Byte) (carry : Nat) : (addBytes as bs carry).length = as.length := by
  induction as generalizing bs carry with
  | nil => rfl
  | cons a as ih => simp [addBytes, ih]

/-- `add_accumulate(a, b)` (R110). A longer `b` is outside its contract and cannot be written (U10; log 12). -/
def addAccumulate {n m : Nat} (a : Bytes n) (b : Bytes m) (_contract : m ≤ n := by decide) : Bytes n :=
  bytesOf (addBytes a.toList.reverse b.toList.reverse 0).reverse (by simp [addBytes_length])

/-- `n` iterations of the loop of `hash_df(M, L)` from counter `i`, hashes whole (R112). `hashDf` alone calls it, with counters and
lengths that fit their fields (what `be` does beyond is log 21). -/
def hashDfLoop (m : List Byte) (outLength : Nat) : Nat → Nat → List Byte
  | 0, _ => []
  | n + 1, i => (sha256 (be 1 i ++ be 4 (8 * outLength) ++ m)).toList ++ hashDfLoop m outLength n (i + 1)

theorem hashDfLoop_length (m : List Byte) (outLength n i : Nat) : (hashDfLoop m outLength n i).length = 32 * n := by
  induction n generalizing i with
  | zero => rfl
  | succ n ih => simp [hashDfLoop, ih]; omega

/-- `hash_df(M, L)`: `ceil(L/32)` hashes, counter from 1, the last hash truncated (R112). Defined up to `L` = 8160, where the
one-byte counter ends; a larger `L` cannot be written (U5; log 12). A message so long that a hash input reaches 2^61
bytes is the model's choice (log 11). -/
def hashDf (m : List Byte) (outLength : Nat) (_contract : outLength ≤ Config.hashDfLimit := by decide) : Bytes outLength :=
  bytesOf ((hashDfLoop m outLength ((outLength + 31) / 32) 1).take outLength) (by
    simp [hashDfLoop_length]; omega)

/-- `n` iterations of the loop of `hash_gen`, hashes whole: hash `data` with no tag, then add 1 to it modulo 2^440 (R113). -/
def hashGenLoop : Nat → Bytes 55 → List Byte
  | 0, _ => []
  | n + 1, data => (sha256 data.toList).toList ++ hashGenLoop n (addAccumulate data (beBytes 1 1))

theorem hashGenLoop_length (n : Nat) (data : Bytes 55) : (hashGenLoop n data).length = 32 * n := by
  induction n generalizing data with
  | zero => rfl
  | succ n ih => simp [hashGenLoop, ih]; omega

/-- `hash_gen(M, L)`: `ceil(L/32)` hashes of the running copy of `M`, the last one truncated (R113, for `L < 2^32`).
DESIGN CHOICE: the spec gives no output for `L >= 2^32`, and the model carries the same loop on; safe for the block, which asks
for a `u32` length or 184 bytes only (log 20). -/
def hashGen (m : Bytes 55) (outLength : Nat) : Bytes outLength :=
  bytesOf ((hashGenLoop ((outLength + 31) / 32) m).take outLength) (by simp [hashGenLoop_length]; omega)

end Sys2Proof.Machine
end

