-- ==== Sys2Proof/Machine/State.lean ====
section
/-! DEFINITION. The state of the block (10_state), the boundary it shares with the host (20_memory R51 to R53), the faults
it reports (60_exceptions R191) and the state right after reset (10_state R38, 70_reset_and_hazards R220). -/

namespace Sys2Proof.Machine

/-- The block's three faults (60_exceptions R191). A fault of this hardware is a response byte and a sticky bit
(R193), so raising one is a NEXT state (`raise`, Machine/Ops.lean) and no step ends in `fault` (log 8). -/
inductive Fault where
  /-- `ILLEGAL_COMMAND` (R195): raised by an opcode byte outside the map. Safe: reported in band as the spec says. -/
  | illegalCommand
  /-- `NOT_SEEDED` (R196): raised by `FILL` and `ENCRYPT` while `SEEDED` = 0. Safe: reported in band as the spec says. -/
  | notSeeded
  /-- `KEY_NOT_SET` (R197): raised by `ENCRYPT` while `KEYED` = 0. Safe: reported in band as the spec says. -/
  | keyNotSet
  deriving DecidableEq, Repr

/-- Why a step could have no meaning. No step of this model ends so. -/
inductive Refusal where
  /-- An arm of `exec` whose instruction has no meaning yet would raise this; no arm does. Safe. -/
  | notModelled (mnemonic : String)
  deriving DecidableEq, Repr

/-- What the host may do at the boundary (70_reset_and_hazards R231). -/
inductive HostMove where
  /-- Put bytes on the command stream (20_memory R51); any byte string at all (R231). -/
  | send (bytes : List Byte)
  /-- Sample the status port (20_memory R53). -/
  | sample
  /-- The reset event (R220). -/
  | reset
  /-- Put bytes on the command stream and reset the block while it executes the command they complete, after `emitted`
  bytes of that command's response (R221; log 7). -/
  | resetDuring (bytes : List Byte) (emitted : Nat)
  deriving DecidableEq, Repr

/-- The block and its boundary. `STATUS` is stored as its five defined bits; `State.status` (Machine/Flags.lean) reads it. -/
structure State where
  /-- `V` (10_state R20). -/
  v : Bytes 55
  /-- `C` (10_state R22). -/
  c : Bytes 55
  /-- `GC` (10_state R23). -/
  gc : BitVec 64
  /-- `KS[0..43]` (10_state R26). -/
  ks : Vector Word 44
  /-- `SEEDED`, `STATUS[0]` (10_state R27, R30). -/
  seeded : Bool
  /-- `KEYED`, `STATUS[1]` (10_state R28, R30). -/
  keyed : Bool
  /-- `F_ILLEGAL`, `STATUS[2]`, sticky (10_state R30, R31). -/
  fIllegal : Bool
  /-- `F_NOT_SEEDED`, `STATUS[3]`, sticky (10_state R30, R31). -/
  fNotSeeded : Bool
  /-- `F_KEY_NOT_SET`, `STATUS[4]`, sticky (10_state R30, R31). -/
  fKeyNotSet : Bool
  /-- The command stream: bytes sent and not yet consumed, head first (20_memory R51; log 3). -/
  cmd : List Byte
  /-- The response stream: every byte emitted, first byte first (20_memory R52; logs 3, 13). -/
  resp : List Byte
  /-- The host's moves still to come, next one first (R231; log 4). -/
  host : List HostMove
  /-- What the status port returned, oldest first (20_memory R53; log 3). -/
  samples : List (BitVec 8)
  /-- The parameter `Z_SEQ` (00_scope R12), which nothing writes (log 1). -/
  zSeq : BitVec 64
  /-- The model's own counter of reset events, where the free reset values are drawn (log 2). -/
  resets : Nat
  deriving DecidableEq, Repr

/-- The machine right after reset (10_state R38, 70_reset_and_hazards R220): flags and sticky bits 0, the streams empty,
`V`, `C`, `GC` and `KS` unspecified, which are free values here (log 2). -/
def State.reset : State where
  v := Config.resetV 0
  c := Config.resetC 0
  gc := Config.resetGc 0
  ks := Config.resetKs 0
  seeded := false
  keyed := false
  fIllegal := false
  fNotSeeded := false
  fKeyNotSet := false
  cmd := []
  resp := []
  host := []
  samples := []
  zSeq := Config.zSeqDefault
  resets := 0

end Sys2Proof.Machine
end

