-- ==== Sys2Proof/Machine/Flags.lean ====
section
/-! DEFINITION. The status register read whole (10_state R30), the status codes and the sticky bits (60_exceptions R191). -/

namespace Sys2Proof.Machine

/-- `STATUS` (10_state R30): bit 0 `SEEDED`, 1 `KEYED`, 2 `F_ILLEGAL`, 3 `F_NOT_SEEDED`, 4 `F_KEY_NOT_SET`, 7:5 zero. -/
def State.status (s : State) : BitVec 8 :=
  0#3 ++ BitVec.ofBool s.fKeyNotSet ++ BitVec.ofBool s.fNotSeeded ++ BitVec.ofBool s.fIllegal ++ BitVec.ofBool s.keyed
    ++ BitVec.ofBool s.seeded

/-- The status byte of a command that completes (60_exceptions R191). -/
def okCode : Byte := 0x00

/-- The status byte of a fault (60_exceptions R191). -/
def faultCode : Fault → Byte
  | .illegalCommand => 0x01
  | .notSeeded => 0x02
  | .keyNotSet => 0x03

/-- The sticky bit of a fault set (60_exceptions R191, last column). -/
def setSticky (f : Fault) (s : State) : State :=
  match f with
  | .illegalCommand => { s with fIllegal := true }
  | .notSeeded => { s with fNotSeeded := true }
  | .keyNotSet => { s with fKeyNotSet := true }

end Sys2Proof.Machine
end

