-- ==== Sys2Proof/Machine/Ops.lean ====
section
/-! DEFINITION. The named operations on the state: the streams, responding, raising a fault, the generator's procedures on
the state, the status port and the reset event. Commands are written over these alone. -/

namespace Sys2Proof.Machine

/-- Bytes put on the command stream (20_memory R51). -/
def receive (bytes : List Byte) (s : State) : State := { s with cmd := s.cmd ++ bytes }

/-- The command stream after the block consumed a command: what stood behind it (20_memory R51, 30_encoding R71). -/
def consumeTo (rest : List Byte) (s : State) : State := { s with cmd := rest }

/-- `Emit(bytes)`: append to the response stream (00_scope R19, 20_memory R52). -/
def emit (bytes : List Byte) (s : State) : State := { s with resp := s.resp ++ bytes }

/-- The response of a command that completes: status 0x00, then the payload (30_encoding R80). -/
def complete (payload : List Byte) (s : State) : State := emit (okCode :: payload) s

/-- `raise F`: the sticky bit, then the one-byte response; nothing else (60_exceptions R193, R194). -/
def raise (f : Fault) (s : State) : State := emit [faultCode f] (setSticky f s)

/-- The addend `H` of the state update: `SHA256(0x03 || V)` (41_drbg_commands R146). -/
def updateHash (v : Bytes 55) : Bytes 32 := sha256 (Config.tagGeneration :: v.toList)

/-- `StateUpdate()`: `V` plus `H` plus `C` plus the old `GC`, all big-endian modulo 2^440; `GC` plus 1 modulo 2^64
(41_drbg_commands R146). -/
def stateUpdate (s : State) : State :=
  { s with
    v := addAccumulate (addAccumulate (addAccumulate s.v (updateHash s.v)) s.c) (beBytes 8 s.gc.toNat)
    gc := s.gc + 1 }

/-- `Generate(L)`: the output bytes from the old `V`, and the state after the update (41_drbg_commands R145). -/
def generate (outLength : Nat) (s : State) : Bytes outLength × State := (hashGen s.v outLength, stateUpdate s)

/-- A sample of the status port, recorded; no other effect (20_memory R53, R57). -/
def sampleStatus (s : State) : State := { s with samples := s.samples ++ [s.status] }

/-- The reset event (70_reset_and_hazards R220, 10_state R38): flags and sticky bits 0, the bytes of a partly received
command forgotten, `V`, `C`, `GC` and `KS` unspecified (fresh free values, log 2). Emitted bytes stay emitted (R221). -/
def resetBlock (s : State) : State :=
  { s with
    v := Config.resetV (s.resets + 1)
    c := Config.resetC (s.resets + 1)
    gc := Config.resetGc (s.resets + 1)
    ks := Config.resetKs (s.resets + 1)
    seeded := false
    keyed := false
    fIllegal := false
    fNotSeeded := false
    fKeyNotSet := false
    cmd := []
    resets := s.resets + 1 }

/-- The reset event during a command that would have taken `before` to `after`: the first `emitted` bytes of its response
stay, the rest never appears, and the block is reset (70_reset_and_hazards R221; log 7). -/
def cutByReset (emitted : Nat) (before after : State) : State :=
  resetBlock { after with resp := after.resp.take (before.resp.length + emitted) }

end Sys2Proof.Machine
end

