-- ==== Sys2Proof/Machine/Cipher.lean ====
section
/-! DEFINITION. The cipher commands SET_KEY and ENCRYPT (42_cipher_commands R160 to R166). -/

namespace Sys2Proof.Machine

/-- One step of the key expansion: `KS[i]` from `KS[i-4]`, `KS[i-3]`, `KS[i-1]` and the round constant
`bit(Z_SEQ, 61-(i-4))` (R162, for `i` from 4 to 43; another `i` is the model's choice, log 21). -/
def expandWord (z : BitVec 64) (i : Nat) (k4 k3 k1 : Word) : Word :=
  let t0 := rotr k1 3 ^^^ k3
  let t1 := t0 ^^^ rotr t0 1
  let rc := (BitVec.ofBool (z.getLsbD (61 - (i - 4)))).setWidth 32
  ~~~k4 ^^^ t1 ^^^ rc ^^^ Config.keyScheduleConstant

/-- `n` more round keys from index `i`, behind the four before it (R162). -/
def expandFrom (z : BitVec 64) : Nat → Nat → Word → Word → Word → Word → List Word
  | 0, _, _, _, _, _ => []
  | n + 1, i, k4, k3, k2, k1 =>
    let k := expandWord z i k4 k3 k1
    k :: expandFrom z n (i + 1) k3 k2 k1 k

theorem expandFrom_length (z : BitVec 64) (n i : Nat) (k4 k3 k2 k1 : Word) :
    (expandFrom z n i k4 k3 k2 k1).length = n := by
  induction n generalizing i k4 k3 k2 k1 with
  | zero => rfl
  | succ n ih => simp [expandFrom, ih]

/-- The 44 round keys behind the four key words `KS[0..3]` (R162). -/
def expandSchedule (z : BitVec 64) (k0 k1 k2 k3 : Word) : Vector Word 44 :=
  ⟨(k0 :: k1 :: k2 :: k3 :: expandFrom z 40 4 k0 k1 k2 k3).toArray, by simp [expandFrom_length]⟩

/-- The key schedule of a 16-byte key: word 0 is the last four key bytes (R161), then the expansion (R162). -/
def keySchedule (z : BitVec 64) (key : Bytes 16) : Vector Word 44 :=
  expandSchedule z (wordAt key.toList 3) (wordAt key.toList 2) (wordAt key.toList 1) (wordAt key.toList 0)

/-- `MaskedAnd(a, ma, b, mb, mc)`, the five-term formula in its written order (R165). -/
def maskedAnd (a ma b mb mc : Word) : Word :=
  ((((a &&& b) ^^^ mc) ^^^ (a &&& mb)) ^^^ (b &&& ma)) ^^^ (ma &&& mb)

/-- The four share registers inside one `ENCRYPT` (10_state R33): public shares `x`, `y`, mask shares `mx`, `my`. -/
structure Shares where
  x : Word
  mx : Word
  y : Word
  my : Word
  deriving DecidableEq, Repr

/-- `Round(x, mx, y, my, mc, k)`; the round key goes into the public share only (R166, R167). -/
def cipherRound (sh : Shares) (mc k : Word) : Shares where
  x := sh.y ^^^ maskedAnd (rotl sh.x 1) (rotl sh.mx 1) (rotl sh.x 8) (rotl sh.mx 8) mc ^^^ rotl sh.x 2 ^^^ k
  mx := sh.my ^^^ mc ^^^ rotl sh.mx 2
  y := sh.x
  my := sh.mx

/-- Step 2 of `ENCRYPT`: the two plaintext halves blinded by `masks[0]` and `masks[1]` (R163, R164).
Other lengths than 184 and 8 bytes are the model's choice (log 21). -/
def blind (maskBytes plaintext : List Byte) : Shares where
  x := wordAt plaintext 0 ^^^ wordAt maskBytes 0
  mx := wordAt maskBytes 0
  y := wordAt plaintext 1 ^^^ wordAt maskBytes 1
  my := wordAt maskBytes 1

/-- Step 3 of `ENCRYPT`: round `r` uses `masks[r+2]` and `KS[r]` (R163, R164). Other lengths than 184 mask
bytes and 44 round keys are the model's choice (log 21). -/
def cipherRounds (maskBytes : List Byte) (ks : List Word) (sh : Shares) : Shares :=
  ks.zipIdx.foldl (fun sh kr => cipherRound sh (wordAt maskBytes (kr.2 + 2)) kr.1) sh

/-- Step 4 of `ENCRYPT`: unmask and serialise, `x` half first (R163). -/
def unmask (sh : Shares) : List Byte := be 4 (sh.x ^^^ sh.mx).toNat ++ be 4 (sh.y ^^^ sh.my).toNat

/-- `SET_KEY` (R160): all 44 round keys and `KEYED`. No precondition; the generator is not touched. -/
def execSetKey (key : Bytes 16) (s : State) : Host.Outcome State Fault Refusal :=
  .next (complete [] { s with ks := keySchedule s.zSeq key, keyed := true })

/-- `ENCRYPT` (R163): `KEY_NOT_SET` first, then `NOT_SEEDED` (60_exceptions R198), else one `Generate(184)` for the masks and
the masked encryption of the block. -/
def execEncrypt (plaintext : Bytes 8) (s : State) : Host.Outcome State Fault Refusal :=
  if s.keyed then
    if s.seeded then
      let drawn := generate Config.maskBytes s
      let masks := drawn.1.toList
      .next (complete (unmask (cipherRounds masks s.ks.toList (blind masks plaintext.toList))) drawn.2)
    else .next (raise .notSeeded s)
  else .next (raise .keyNotSet s)

end Sys2Proof.Machine
end

