-- ==== Sys2Proof/Machine/Generator.lean ====
section
/-! DEFINITION. The generator commands SEED and FILL (41_drbg_commands R141 to R146). -/

namespace Sys2Proof.Machine

/-- `SEED` (R141, R142): `V` from the 48 operand bytes as they are, `C` from `0x00 || V` with the new `V`, `GC` 0, `SEEDED` 1.
No precondition. -/
def execSeed (material : Bytes 48) (s : State) : Host.Outcome State Fault Refusal :=
  let v := hashDf material.toList 55
  .next (complete [] { s with v := v, c := hashDf (Config.tagSeeding :: v.toList) 55, gc := 0, seeded := true })

/-- `FILL` (R144): `NOT_SEEDED` while `SEEDED` = 0, else `Generate(length)` and its bytes. -/
def execFill (length : BitVec 32) (s : State) : Host.Outcome State Fault Refusal :=
  if s.seeded then
    let drawn := generate length.toNat s
    .next (complete drawn.1.toList drawn.2)
  else .next (raise .notSeeded s)

end Sys2Proof.Machine
end

