-- ==== Sys2Proof/Machine/Dispatch.lean ====
section
/-! DEFINITION. One arm per command of the table (30_encoding R72). -/

namespace Sys2Proof.Machine

/-- The meaning of a legal command whose bytes have been consumed. -/
def exec (i : Instr) (s : State) : Host.Outcome State Fault Refusal :=
  match i with
  | .seed material => Sys2Proof.Machine.execSeed material s
  | .fill length => Sys2Proof.Machine.execFill length s
  | .setKey key => Sys2Proof.Machine.execSetKey key s
  | .encrypt plaintext => Sys2Proof.Machine.execEncrypt plaintext s

end Sys2Proof.Machine
end

