-- ==== Sys2Proof/Machine/Moves.lean ====
section
/-! DEFINITION. What one step does: run the command at the head of the command stream, or, while the block waits there, let
the host make its next move (20_memory R62; 70_reset_and_hazards R231). -/

namespace Sys2Proof.Machine

/-- An illegal opcode byte, consumed alone (30_encoding R78, 60_exceptions R195). -/
def execIllegal (s : State) : Host.Outcome State Fault Refusal := .next (raise .illegalCommand s)

/-- What stands at the head of the stream, executed; an incomplete command has no effect (20_memory R62). -/
def runDecoded (d : Decoded) (s : State) : Host.Outcome State Fault Refusal :=
  match d with
  | .command i rest => exec i (consumeTo rest s)
  | .illegal _ rest => execIllegal (consumeTo rest s)
  | .incomplete => .next s

/-- One move of the host while the block is idle (log 4). With no move left the block waits on: the same state
(20_memory R62; log 5). -/
def hostMove (s : State) : Host.Outcome State Fault Refusal :=
  match s.host with
  | [] => .next s
  | .send bytes :: moves => .next (receive bytes { s with host := moves })
  | .sample :: moves => .next (sampleStatus { s with host := moves })
  | .reset :: moves => .next (resetBlock { s with host := moves })
  | .resetDuring bytes emitted :: moves =>
    let before := receive bytes { s with host := moves }
    match runDecoded (decode before.cmd) before with
    | .next after => .next (cutByReset emitted before after)
    | .fault f => .fault f
    | .refused r => .refused r

/-- The state with a command, in the table's bit numbering, at the head of the command stream (logs 10, 17). -/
def placeCommand (nbits w : Nat) (s : State) : State := { s with cmd := tableCommand nbits w ++ s.cmd }

end Sys2Proof.Machine
end

