-- ==== Sys2Proof/Machine/Step.lean ====
section
/-! DEFINITION. One step of the machine (00_scope R14, 10_state R34, 20_memory R58, R62). -/

namespace Sys2Proof.Machine

/-- Execute the command at the head of the command stream as one atomic transition; while it is incomplete the block
waits and the host moves (20_memory R62; log 4). -/
def step (s : State) : Host.Outcome State Fault Refusal :=
  match decode s.cmd with
  | .command i rest => runDecoded (.command i rest) s
  | .illegal op rest => runDecoded (.illegal op rest) s
  | .incomplete => hostMove s

/-- The state with a command placed where the next step fetches it: at the head of the command stream. The block has no
program of its own, so this stands for the host's sending it (logs 10, 17). -/
def State.withFetchWord (s : State) (nbits w : Nat) : State := placeCommand nbits w s

end Sys2Proof.Machine
end

