-- ==== Sys2Proof/Machine/PlainCipher.lean ====
section
/-! DEFINITION. The unmasked cipher of 42_cipher_commands R169, in whose terms claims about `ENCRYPT` are made. The machine never
runs it: `ENCRYPT` is computed through the masked data path (Machine/Cipher.lean), as R169 demands. -/

namespace Sys2Proof.Machine

/-- `PlainRound(X, Y, k)` on the true values (R169). -/
def plainRound (xy : Word × Word) (k : Word) : Word × Word :=
  (xy.2 ^^^ (rotl xy.1 1 &&& rotl xy.1 8) ^^^ rotl xy.1 2 ^^^ k, xy.1)

/-- `PlainEncrypt(KS, plaintext)` (R169), of 44 round keys and 8 bytes; other lengths are the model's choice (log 21). -/
def plainEncrypt (ks : List Word) (plaintext : List Byte) : List Byte :=
  let xy := ks.foldl plainRound (wordAt plaintext 0, wordAt plaintext 1)
  be 4 xy.1.toNat ++ be 4 xy.2.toNat

end Sys2Proof.Machine
end

