-- ==== Sys2Proof/Safety.lean ====
section
/-! DEFINITION. The terms in which claims are made: runs of commands, what a faultless run is (10_state R31), the invariant of
the key schedule (R26), and which states differ only in what reset leaves unspecified (R38) or only in the generator. -/

namespace Sys2Proof.Machine

/-- The commands of a list executed one after another (20_memory R58), stopping where one stops. -/
def execAll : List Instr → State → Host.Outcome State Fault Refusal
  | [], s => .next s
  | i :: is, s =>
    match exec i s with
    | .next t => execAll is t
    | .fault f => .fault f
    | .refused r => .refused r

/-- The command stream of a list of commands (30_encoding R71, R81). -/
def streamOf (is : List Instr) : List Byte := is.flatMap encode

/-- "No fault recorded", `STATUS[4:2]` = 0 (10_state R31). -/
def NoFaultRecorded (s : State) : Prop := s.status.extractLsb' 2 3 = 0#3

/-- A command that performs a generation when it completes (10_state R23, R37). -/
def isGeneration : Instr → Bool
  | .seed _ => false
  | .fill _ => true
  | .setKey _ => false
  | .encrypt _ => true

/-- A `SEED`. -/
def isSeed : Instr → Bool
  | .seed _ => true
  | .fill _ => false
  | .setKey _ => false
  | .encrypt _ => false

/-- A `SET_KEY`. -/
def isSetKey : Instr → Bool
  | .seed _ => false
  | .fill _ => false
  | .setKey _ => true
  | .encrypt _ => false

/-- `m`, the payload length of a command that completes (30_encoding R80). -/
def payloadLength : Instr → Nat
  | .seed _ => 0
  | .fill length => length.toNat
  | .setKey _ => 0
  | .encrypt _ => 8

/-- A command of the cipher half. -/
def isCipher : Instr → Bool
  | .seed _ => false
  | .fill _ => false
  | .setKey _ => true
  | .encrypt _ => true

/-- The expansion rule of 42_cipher_commands R162 between the words of a key schedule, for the parameter `z`. -/
def ScheduleExpanded (z : BitVec 64) (ks : Vector Word 44) : Prop :=
  ∀ (i : Nat) (_ : 4 ≤ i) (_ : i < 44),
    let t0 := rotr ks[i - 1] 3 ^^^ ks[i - 3]
    let t1 := t0 ^^^ rotr t0 1
    let rc : Word := if z.getLsbD (61 - (i - 4)) then 0x00000001 else 0x00000000
    ks[i] = ~~~ks[i - 4] ^^^ t1 ^^^ rc ^^^ 0x00000003

/-- A block with a key holds an expanded key schedule: "fully determined by the 128-bit input key; immutable once computed
until a new key is set" (10_state R26). -/
def KeyScheduleInv (s : State) : Prop := s.keyed = true → ScheduleExpanded s.zSeq s.ks

/-- Two states that differ at most in what reset leaves unspecified and nothing has written since: `V`, `C`, `GC` while
`SEEDED` = 0, and `KS` while `KEYED` = 0 (10_state R38). -/
def AgreeWhereWritten (s t : State) : Prop :=
  t = { s with v := t.v, c := t.c, gc := t.gc, ks := t.ks } ∧
  (s.seeded = true → t.v = s.v ∧ t.c = s.c ∧ t.gc = s.gc) ∧
  (s.keyed = true → t.ks = s.ks)

/-- Two states that differ at most in the generator state `V`, `C`, `GC`. -/
def AgreeButGenerator (s t : State) : Prop := t = { s with v := t.v, c := t.c, gc := t.gc }

/-- The state update of 41_drbg_commands R146 as an equation between integers: `v'` and `gc'` are what it makes of `V`, `C`
and `GC`. -/
def UpdatedTo (v c : Bytes 55) (gc : BitVec 64) (v' : Bytes 55) (gc' : BitVec 64) : Prop :=
  intOf v'.toList = (intOf v.toList + intOf (sha256 (0x03 :: v.toList)).toList + intOf c.toList + gc.toNat) % 2 ^ 440 ∧
  gc'.toNat = (gc.toNat + 1) % 2 ^ 64

end Sys2Proof.Machine
end

