-- ==== Sys2Proof/Certificates/Slice0/Obligations.lean ====
section
/-! DEFINITION. What is claimed of the model: the statements for the provers, each from numbered rules of `spec/`. -/

open Sys2Proof Sys2Proof.Machine

/-! ### Encoding -/

/-- Every command with every operand decodes from its own bytes, whatever follows them (30_encoding R71 to R76). -/
def Obligations.EncodedCommandDecodesToItself : Prop :=
  ∀ (i : Instr) (rest : List Byte), decode (encode i ++ rest) = .command i rest

/-- The other direction: the bytes a legal command was read from are its encoding, so no other bytes spell it (30_encoding
R71 to R76; R78: no reserved-but-legal encodings). -/
def Obligations.DecodedBytesAreTheEncoding : Prop :=
  ∀ (s rest : List Byte) (i : Instr), decode s = .command i rest → s = encode i ++ rest

/-- An opcode byte is illegal exactly when it is none of `0x01` to `0x04`, and then it alone is consumed (30_encoding R78). -/
def Obligations.IllegalExactlyOutsideTheOpcodeMap : Prop :=
  (∀ (op : Byte) (s : List Byte), decode (op :: s) = .illegal op s ↔
    op ≠ 0x01 ∧ op ≠ 0x02 ∧ op ≠ 0x03 ∧ op ≠ 0x04) ∧
  (∀ (s rest : List Byte) (op : Byte), decode s = .illegal op rest → s = op :: rest)

/-- A byte string is incomplete exactly when it is empty or a legal opcode with fewer operand bytes than its format has
(20_memory R62, 30_encoding R72). -/
def Obligations.IncompleteExactlyWhileBytesAreMissing : Prop :=
  ∀ s : List Byte, decode s = .incomplete ↔
    s = [] ∨ ∃ op t, s = op :: t ∧
      ((op = 0x01 ∧ t.length < 48) ∨ (op = 0x02 ∧ t.length < 4) ∨ (op = 0x03 ∧ t.length < 16) ∨
        (op = 0x04 ∧ t.length < 8))

/-- The block never looks at a byte beyond the command it is consuming (20_memory R51). -/
def Obligations.DecodeIgnoresBytesBehindTheCommand : Prop :=
  (∀ (s rest more : List Byte) (i : Instr), decode s = .command i rest →
    decode (s ++ more) = .command i (rest ++ more)) ∧
  (∀ (s rest more : List Byte) (op : Byte), decode s = .illegal op rest →
    decode (s ++ more) = .illegal op (rest ++ more))

/-- The worked encodings, byte for byte (30_encoding, section 6, which the spec marks as derived from its formats). -/
def Obligations.WorkedEncodings : Prop :=
  encode (.fill 4) = [0x02, 0x00, 0x00, 0x00, 0x04] ∧
  encode (.fill 184) = [0x02, 0x00, 0x00, 0x00, 0xb8] ∧
  encode (.setKey #v[0x1b, 0x1a, 0x19, 0x18, 0x13, 0x12, 0x11, 0x10, 0x0b, 0x0a, 0x09, 0x08, 0x03, 0x02, 0x01, 0x00]) =
    [0x03, 0x1b, 0x1a, 0x19, 0x18, 0x13, 0x12, 0x11, 0x10, 0x0b, 0x0a, 0x09, 0x08, 0x03, 0x02, 0x01, 0x00] ∧
  encode (.encrypt #v[0x65, 0x6b, 0x69, 0x6c, 0x20, 0x64, 0x6e, 0x75]) =
    [0x04, 0x65, 0x6b, 0x69, 0x6c, 0x20, 0x64, 0x6e, 0x75] ∧
  encode (.seed (Vector.replicate 48 0)) = 0x01 :: List.replicate 48 0x00

/-- One word of each row of the opcode table, in the table's bit numbering, decodes to the row's command; the length of
`FILL` is big-endian, so bits 39..32 are its low byte (30_encoding R72 to R76; the words' layout is log 17). -/
def Obligations.TableWordsDecode : Prop :=
  decodeTableWord 8 0x01 = some (.seed (Vector.replicate 48 0)) ∧
  decodeTableWord 40 0x0400000002 = some (.fill 4) ∧
  decodeTableWord 136 0x03 = some (.setKey (Vector.replicate 16 0)) ∧
  decodeTableWord 72 0x756e64206c696b6504 = some (.encrypt #v[0x65, 0x6b, 0x69, 0x6c, 0x20, 0x64, 0x6e, 0x75]) ∧
  decodeTableWord 8 0x00 = none ∧ decodeTableWord 8 0x05 = none

/-- `int` and `BE_n` are inverse to each other on what fits (00_scope R17, which gives `BE_n(v)` for `0 <= v < 2^(8n)`). That
`BE_n` keeps the `n` low bytes of a larger `v`, so that `int` of them is `v mod 2^(8n)`, is the model's choice (log 21). -/
def Obligations.BigEndianBytesAndIntegersAreInverse : Prop :=
  (∀ n v : Nat, intOf (be n v) = v % 2 ^ (8 * n)) ∧ (∀ s : List Byte, be s.length (intOf s) = s)

/-! ### The step -/

/-- When the bytes at the head of the command stream decode to a command, a step is that command, executed with exactly
its bytes consumed (10_state R34, 30_encoding R71). That host moves pending in `s.host` wait meanwhile is the model's schedule (log 4). -/
def Obligations.StepExecutesTheDecodedCommand : Prop :=
  ∀ (s : State) (i : Instr) (rest : List Byte), decode s.cmd = .command i rest →
    step s = exec i { s with cmd := rest }

/-- An illegal opcode consumes one byte, sets `F_ILLEGAL`, responds `0x01` and changes nothing else (60_exceptions R195).
That host moves pending in `s.host` wait meanwhile is the model's schedule (log 4). -/
def Obligations.IllegalOpcodeIsReported : Prop :=
  ∀ (s : State) (op : Byte) (rest : List Byte), s.cmd = op :: rest →
    op ≠ 0x01 → op ≠ 0x02 → op ≠ 0x03 → op ≠ 0x04 →
    step s = .next { s with cmd := rest, fIllegal := true, resp := s.resp ++ [0x01] }

/-- While a command is incomplete and the host does nothing, the block waits: no state changes and nothing is emitted
(20_memory R62). That waiting is a step to the same state is the model's choice (log 5). -/
def Obligations.IncompleteCommandWaits : Prop :=
  ∀ s : State, decode s.cmd = .incomplete → s.host = [] → step s = .next s

/-- While the block waits, bytes the host sends are appended to the command stream (20_memory R51) and nothing else
changes; that the host moves while the block waits is the model's schedule (log 4). -/
def Obligations.HostBytesAreAppended : Prop :=
  ∀ (s : State) (bytes : List Byte) (moves : List HostMove), decode s.cmd = .incomplete →
    s.host = .send bytes :: moves → step s = .next { s with cmd := s.cmd ++ bytes, host := moves }

/-- A sample of the status port shows `STATUS` with the fields of 10_state R30 and has no side effect (20_memory R53, R57);
when it may land is the model's schedule (log 4). -/
def Obligations.StatusSampleShowsTheFlagsAndChangesNothing : Prop :=
  ∀ (s : State) (moves : List HostMove), decode s.cmd = .incomplete → s.host = .sample :: moves →
    ∃ w : BitVec 8, step s = .next { s with host := moves, samples := s.samples ++ [w] } ∧
      w.getLsbD 0 = s.seeded ∧ w.getLsbD 1 = s.keyed ∧ w.getLsbD 2 = s.fIllegal ∧ w.getLsbD 3 = s.fNotSeeded ∧
      w.getLsbD 4 = s.fKeyNotSet ∧ w.getLsbD 5 = false ∧ w.getLsbD 6 = false ∧ w.getLsbD 7 = false

/-- The values reset gives: `SEEDED`, `KEYED` and the sticky bits 0, so `STATUS` is `0x00` and no fault is recorded
(10_state R38). Nothing is said of `V`, `C`, `GC` and `KS`, which R38 leaves unspecified. -/
def Obligations.ResetValues : Prop :=
  State.reset.seeded = false ∧ State.reset.keyed = false ∧ State.reset.status = 0x00 ∧ NoFaultRecorded State.reset

/-- The reset event (70_reset_and_hazards R220): flags and `STATUS` zero, the bytes of a partly received command forgotten;
emitted bytes and samples stay with the host (logs 4, 6). `V`, `C`, `GC` and `KS` become unspecified: nothing is said of them. -/
def Obligations.ResetEventClearsTheBlock : Prop :=
  ∀ (s : State) (moves : List HostMove), decode s.cmd = .incomplete → s.host = .reset :: moves →
    ∃ t, step s = .next t ∧ t.seeded = false ∧ t.keyed = false ∧ t.status = 0x00 ∧ t.cmd = [] ∧
      t.resp = s.resp ∧ t.samples = s.samples ∧ t.host = moves ∧ t.zSeq = s.zSeq

/-- Reset during a command (70_reset_and_hazards R221): of the response the command would have given, the bytes emitted so
far stay and the rest never appears; flags and `STATUS` are those of reset, whatever the command had done. That the host
picks the moment and that bytes sent so far are forgotten is the model's form of it (log 7); that the host moves while no whole
command is on the stream is its schedule (log 4). -/
def Obligations.ResetDuringACommandCutsTheResponse : Prop :=
  ∀ (s : State) (bytes rest : List Byte) (k : Nat) (moves : List HostMove) (i : Instr),
    decode s.cmd = .incomplete → s.host = .resetDuring bytes k :: moves → decode (s.cmd ++ bytes) = .command i rest →
    ∃ u response t, exec i { s with cmd := rest, host := moves } = .next u ∧ u.resp = s.resp ++ response ∧
      step s = .next t ∧ t.resp = s.resp ++ response.take k ∧ t.seeded = false ∧ t.keyed = false ∧ t.status = 0x00 ∧
      t.cmd = [] ∧ t.samples = s.samples ∧ t.host = moves

/-- Every step answers a next state: "every operation either completes with a fully defined result or the precondition was
violated", and a violation is a reported response (60_exceptions R190, R193); a wait is a step too (log 5), and so are
the host's moves (logs 4, 7). -/
def Obligations.EveryStepAnswersANextState : Prop :=
  (∀ s : State, ∃ t, step s = .next t) ∧ (∀ (i : Instr) (s : State), ∃ t, exec i s = .next t)

/-- A command whose bytes arrive in two pieces takes effect once the last byte has arrived, and not before (20_memory R62):
two sends and one execution. The number of steps is the model's schedule (log 4). -/
def Obligations.CommandSentInTwoPiecesExecutesOnce : Prop :=
  ∀ (s : State) (i : Instr) (a b : List Byte) (moves : List HostMove), encode i = a ++ b → b ≠ [] → s.cmd = [] →
    s.host = .send a :: .send b :: moves → Host.Core.run Sys2Proof.core 3 s = exec i { s with host := moves }

/-- Commands take effect one after another in the order of their bytes, each seeing the state its predecessor left, and
the next one starts at the next byte (20_memory R58, 30_encoding R71): as many steps as commands are the commands in turn.
That host moves pending in `s.host` wait until all these commands are done is the model's schedule (log 4). -/
def Obligations.CommandsExecuteInStreamOrder : Prop :=
  ∀ (is : List Instr) (rest : List Byte) (s : State), s.cmd = streamOf is ++ rest →
    Host.Core.run Sys2Proof.core is.length s = execAll is { s with cmd := rest }

/-- A sample taken behind a series of commands sees exactly their effects (20_memory R53, R58); that the host's move comes
after the whole commands on the stream is the model's schedule (log 4). -/
def Obligations.SampleSeesExactlyTheEarlierCommands : Prop :=
  ∀ (is : List Instr) (moves : List HostMove) (s : State), s.cmd = streamOf is → s.host = .sample :: moves →
    ∃ t, execAll is { s with cmd := [] } = .next t ∧
      Host.Core.run Sys2Proof.core (is.length + 1) s = .next { t with host := moves, samples := s.samples ++ [t.status] }

/-- Bytes on the response stream stay there in their order: every step, reset included, only appends (20_memory R52,
70_reset_and_hazards R221). The host's moves among the steps are the model's (log 4), the reset during a command too (log 7). -/
def Obligations.EmittedBytesStayEmitted : Prop :=
  ∀ s t : State, step s = .next t → ∃ more, t.resp = s.resp ++ more

/-! ### SHA-256 and the generator's procedures -/

/-- The check values of SHA-256 (40_primitives R108). -/
def Obligations.Sha256CheckValues : Prop :=
  intOf (sha256 []).toList = 0xe3b0c44298fc1c149afbf4c8996fb92427ae41e4649b934ca495991b7852b855 ∧
  intOf (sha256 [0x61, 0x62, 0x63]).toList = 0xba7816bf8f01cfea414140de5dae2223b00361a396177a9cb410ff61f20015ad ∧
  intOf (sha256 (zeros 55)).toList = 0x02779466cdec163811d078815c633f21901413081449002f24aa3e80f0b88ef7 ∧
  intOf (sha256 (zeros 56)).toList = 0xd4817aa5497628e7c77e6b606107042bbba3130888c5f47a375e6179be789fbb ∧
  intOf (sha256 (0x03 :: zeros 55)).toList = 0x654e371d6d6027fff8289f95cd3c69800e947d05df75e8bda7d831ab7787bc92 ∧
  intOf (sha256 (List.replicate 55 0xff)).toList = 0xaadaed00a3c5fbb8072ae7f1984ba8199fbe5272de427d11eaf31583af37db51

/-- The padded message is `m || 0x80 || zeros(k) || BE_8(8n)` with `k` least such that `(n+1+k) mod 64 = 56`, its length a
multiple of 64 (40_primitives R102, for messages of fewer than 2^61 bytes: R100, and R17 for the length field). The padding of a
longer message, its length field modulo 2^64, is the model's choice (log 11). -/
def Obligations.Sha256PaddingIsLeastAndWhole : Prop :=
  ∀ m : List Byte, ∃ k : Nat,
    shaPad m = m ++ [0x80] ++ List.replicate k 0x00 ++ be 8 (8 * m.length) ∧
    (m.length + 1 + k) % 64 = 56 ∧ (∀ j < k, (m.length + 1 + j) % 64 ≠ 56) ∧ (shaPad m).length % 64 = 0

/-- `W[t]` is the block's big-endian word for t = 0..15, and for t = 16..63 the sum of `SSIG1(W[t-2])`, `W[t-7]`,
`SSIG0(W[t-15])` and `W[t-16]` modulo 2^32 (40_primitives R104, for a 64-byte
block). That a list of another length has a schedule is the model's choice (log 21). -/
def Obligations.Sha256MessageScheduleRecurrence : Prop :=
  ∀ block : List Byte, (shaSchedule block).length = 64 ∧
    (∀ t < 16, (shaSchedule block)[t]? = some (wordAt block t)) ∧
    (∀ t, 16 ≤ t → t < 64 → ∃ w2 w7 w15 w16,
      (shaSchedule block)[t - 2]? = some w2 ∧ (shaSchedule block)[t - 7]? = some w7 ∧
      (shaSchedule block)[t - 15]? = some w15 ∧ (shaSchedule block)[t - 16]? = some w16 ∧
      (shaSchedule block)[t]? = some (shaSsig1 w2 + w7 + shaSsig0 w15 + w16))

/-- A message that with its padding is one 64-byte block is one compression, one that is two blocks two in order: the two
cases that occur in the block, up to 55 bytes and 56 to 119 bytes (40_primitives R102, R105, R107). -/
def Obligations.Sha256BlocksAreCompressedInOrder : Prop :=
  (∀ m : List Byte, m.length ≤ 55 → sha256 m = shaDigest (shaCompress shaIv (shaPad m))) ∧
  (∀ m : List Byte, 56 ≤ m.length → m.length ≤ 119 →
    sha256 m = shaDigest (shaCompress (shaCompress shaIv ((shaPad m).take 64)) ((shaPad m).drop 64)))

/-- The law of `add_accumulate`: big-endian addition modulo 2^(8*len(a)), the carry discarded; hence successive
accumulations commute and associate, and the increment of `hash_gen` is `add_accumulate(data, 01)` (40_primitives R111). The
length of the result is in its type. That `hash_gen` has outputs of 2^32 bytes and more is the model's choice (log 20). -/
def Obligations.AddAccumulateIsModularAddition : Prop :=
  (∀ (n m : Nat) (a : Bytes n) (b : Bytes m) (h : m ≤ n),
    intOf (addAccumulate a b h).toList = (intOf a.toList + intOf b.toList) % 2 ^ (8 * n)) ∧
  (∀ (n m l : Nat) (a : Bytes n) (b : Bytes m) (c : Bytes l) (hb : m ≤ n) (hc : l ≤ n),
    addAccumulate (addAccumulate a b hb) c hc = addAccumulate (addAccumulate a c hc) b hb) ∧
  (∀ (n : Nat) (a b c : Bytes n),
    addAccumulate (addAccumulate a b (Nat.le_refl n)) c (Nat.le_refl n) =
      addAccumulate a (addAccumulate b c (Nat.le_refl n)) (Nat.le_refl n)) ∧
  (∀ (data : Bytes 55) (outLength : Nat),
    (hashGen data (32 + outLength)).toList =
      (sha256 data.toList).toList ++ (hashGen (addAccumulate data #v[0x01]) outLength).toList)

/-- `hash_df(M, L)` is the first `L` bytes of `SHA256(BE_1(i) || BE_4(8L) || M)` for i = 1, 2, ..., ceil(L/32), for every `L`
the model defines it for (40_primitives R112). A message so long that a hash input reaches 2^61 bytes is the model's choice (log 11). -/
def Obligations.HashDfConcatenatesCountedHashes : Prop :=
  ∀ (m : List Byte) (outLength : Nat) (h : outLength ≤ 8160),
    (hashDf m outLength h).toList =
      ((List.range ((outLength + 31) / 32)).flatMap
        (fun j => (sha256 (BitVec.ofNat 8 (j + 1) :: be 4 (8 * outLength) ++ m)).toList)).take outLength

/-- `hash_gen(M, L)` is the first `L` bytes of `SHA256(D_0) || SHA256(D_1) || ...` with `D_j = BE_55((int(M) + j) mod 2^440)`,
`ceil(L/32)` of them: 40_primitives R113 for `L < 2^32`; that the same holds from 2^32 on is the model's choice (log 20). -/
def Obligations.HashGenConcatenatesHashesOfSuccessors : Prop :=
  ∀ (m : Bytes 55) (outLength : Nat),
    (hashGen m outLength).toList =
      ((List.range ((outLength + 31) / 32)).flatMap
        (fun j => (sha256 (be 55 ((intOf m.toList + j) % 2 ^ 440))).toList)).take outLength

/-- A shorter output of `hash_gen` is a prefix of a longer one from the same value (40_primitives R113, 41_drbg R149);
lengths of 2^32 and more are the model's choice (log 20). -/
def Obligations.HashGenOutputsArePrefixes : Prop :=
  ∀ (m : Bytes 55) (l₁ l₂ : Nat), l₁ ≤ l₂ → (hashGen m l₁).toList = (hashGen m l₂).toList.take l₁

/-! ### SEED and FILL -/

/-- `SEED` answers a next state whatever came before: `V` is the two counted hashes of the 48 operand bytes cut to 55
bytes, `C` the same of `0x00` and the new `V`, `GC` is 0, `SEEDED` is 1, the response is `0x00`, and nothing else changes
(41_drbg R142, 40_primitives R112). -/
def Obligations.SeedDerivesTheGeneratorState : Prop :=
  ∀ (e : Bytes 48) (s : State), ∃ v c : Bytes 55,
    exec (.seed e) s = .next { s with v := v, c := c, gc := 0, seeded := true, resp := s.resp ++ [0x00] } ∧
    v.toList = (sha256 ([0x01, 0x00, 0x00, 0x01, 0xb8] ++ e.toList)).toList ++
      (sha256 ([0x02, 0x00, 0x00, 0x01, 0xb8] ++ e.toList)).toList.take 23 ∧
    c.toList = (sha256 ([0x01, 0x00, 0x00, 0x01, 0xb8, 0x00] ++ v.toList)).toList ++
      (sha256 ([0x02, 0x00, 0x00, 0x01, 0xb8, 0x00] ++ v.toList)).toList.take 23

/-- `FILL` with `SEEDED` = 1 answers a next state: status `0x00` and exactly `length` bytes of `hash_gen` of the OLD `V`; `V` and
`GC` are updated as integers modulo 2^440 and 2^64, the `GC` added being the one before the increment; nothing else
changes. Every length, 0 included (41_drbg R144, R145, R146). -/
def Obligations.FillEmitsAndUpdates : Prop :=
  ∀ (length : BitVec 32) (s : State), s.seeded = true → ∃ (v : Bytes 55) (gc : BitVec 64),
    exec (.fill length) s =
      .next { s with v := v, gc := gc, resp := s.resp ++ 0x00 :: (hashGen s.v length.toNat).toList } ∧
    UpdatedTo s.v s.c s.gc v gc

/-- `NOT_SEEDED`: `FILL` of any length, and `ENCRYPT` with a key, while `SEEDED` = 0, respond `0x02`, set `F_NOT_SEEDED` and change
nothing else (60_exceptions R196, R193). -/
def Obligations.NotSeededIsReported : Prop :=
  (∀ (length : BitVec 32) (s : State), s.seeded = false →
    exec (.fill length) s = .next { s with fNotSeeded := true, resp := s.resp ++ [0x02] }) ∧
  (∀ (plaintext : Bytes 8) (s : State), s.keyed = true → s.seeded = false →
    exec (.encrypt plaintext) s = .next { s with fNotSeeded := true, resp := s.resp ++ [0x02] })

/-- From the same state, two fills of any lengths and an `ENCRYPT` leave the same `V` and `GC`, and of two fills the outputs
agree on the shorter length (41_drbg R149). -/
def Obligations.StateAfterAGenerationIgnoresItsLength : Prop :=
  ∀ (a b : BitVec 32) (plaintext : Bytes 8) (s : State), s.seeded = true → s.keyed = true → a.toNat ≤ b.toNat →
    ∃ t u w outA outB, exec (.fill a) s = .next t ∧ exec (.fill b) s = .next u ∧ exec (.encrypt plaintext) s = .next w ∧
      t.v = u.v ∧ t.gc = u.gc ∧ w.v = u.v ∧ w.gc = u.gc ∧
      t.resp = s.resp ++ 0x00 :: outA ∧ u.resp = s.resp ++ 0x00 :: outB ∧ outA = outB.take a.toNat

/-- The `V` and `GC` after a series of generations depend on how many there were, not on their lengths (41_drbg R149). -/
def Obligations.GeneratorSequenceIgnoresLengths : Prop :=
  ∀ (l₁ l₂ : List (BitVec 32)) (s t u : State), s.seeded = true → l₁.length = l₂.length →
    execAll (l₁.map .fill) s = .next t → execAll (l₂.map .fill) s = .next u → t.v = u.v ∧ t.gc = u.gc

/-- Issuing `SEED` or `SET_KEY` twice leaves the state of issuing it once, but for the second response byte (20_memory R57). -/
def Obligations.SeedAndSetKeyAreIdempotent : Prop :=
  (∀ (e : Bytes 48) (s : State), ∃ t, execAll [.seed e] s = .next t ∧
    execAll [.seed e, .seed e] s = .next { t with resp := t.resp ++ [0x00] }) ∧
  (∀ (key : Bytes 16) (s : State), ∃ t, execAll [.setKey key] s = .next t ∧
    execAll [.setKey key, .setKey key] s = .next { t with resp := t.resp ++ [0x00] })

/-- Determinism: after the same `SEED`, any two blocks with the same `KEYED`, `KS` and `Z_SEQ` (which `ENCRYPT` and `SET_KEY`
read) answer the same bytes to the same commands, whatever generator state they had before (41_drbg R147). -/
def Obligations.ResponsesAfterSeedDependOnSeedAndCommands : Prop :=
  ∀ (e : Bytes 48) (is : List Instr) (s₁ s₂ : State), s₁.keyed = s₂.keyed → s₁.ks = s₂.ks → s₁.zSeq = s₂.zSeq →
    ∃ t₁ t₂ out, execAll (.seed e :: is) s₁ = .next t₁ ∧ execAll (.seed e :: is) s₂ = .next t₂ ∧
      t₁.resp = s₁.resp ++ out ∧ t₂.resp = s₂.resp ++ out ∧ t₁.v = t₂.v ∧ t₁.c = t₂.c ∧ t₁.gc = t₂.gc

/-- `GC` counts generations: over commands without `SEED`, on a block with seed and key, it grows by one for each `FILL` and
`ENCRYPT`, modulo 2^64 (10_state R23, 41_drbg R146). -/
def Obligations.GcCountsGenerations : Prop :=
  ∀ (is : List Instr) (s : State), s.seeded = true → s.keyed = true → is.any isSeed = false →
    ∃ t, execAll is s = .next t ∧ t.gc.toNat = (s.gc.toNat + is.countP isGeneration) % 2 ^ 64

/-! ### SET_KEY and ENCRYPT -/

/-- `SET_KEY` answers a next state whatever came before: `KS[0]` is the last four key bytes and `KS[3]` the first four,
big-endian, `KS[4..43]` follow the expansion rule for `Z_SEQ`, `KEYED` is 1, the response is `0x00`, and nothing else changes
(42_cipher R160, R161, R162). -/
def Obligations.SetKeyLoadsAndExpandsTheKey : Prop :=
  ∀ (key : Bytes 16) (s : State), ∃ ks : Vector Word 44,
    exec (.setKey key) s = .next { s with ks := ks, keyed := true, resp := s.resp ++ [0x00] } ∧
    ks[0].toNat = intOf (key.toList.drop 12) ∧ ks[1].toNat = intOf ((key.toList.drop 8).take 4) ∧
    ks[2].toNat = intOf ((key.toList.drop 4).take 4) ∧ ks[3].toNat = intOf (key.toList.take 4) ∧
    ScheduleExpanded s.zSeq ks

/-- Bits 63, 62 and 21 to 0 of `Z_SEQ` are never read (42_cipher R162, 00_scope R12). -/
def Obligations.KeyScheduleReadsZSeqBits61To22 : Prop :=
  ∀ (z₁ z₂ : BitVec 64) (key : Bytes 16), (∀ k, 22 ≤ k → k ≤ 61 → z₁.getLsbD k = z₂.getLsbD k) →
    keySchedule z₁ key = keySchedule z₂ key

/-- A block with a key holds an expanded key schedule, and every step keeps that: commands, illegal bytes and every move of
the host, reset included (10_state R26, 42_cipher R162). The host's moves as steps are the model's (logs 4, 7). -/
def Obligations.EveryStepKeepsTheKeyScheduleExpanded : Prop :=
  ∀ s t : State, KeyScheduleInv s → step s = .next t → KeyScheduleInv t

/-- The invariant of the key schedule holds at reset, where there is no key (10_state R38). -/
def Obligations.KeyScheduleInvariantHoldsAtReset : Prop := KeyScheduleInv State.reset

/-- The masked-AND identity, and the counter-example to its literal misreading (42_cipher R168). -/
def Obligations.MaskedAndUnmasksToTheAndOfTrueValues : Prop :=
  (∀ a ma b mb mc : Word, maskedAnd a ma b mb mc ^^^ mc = (a ^^^ ma) &&& (b ^^^ mb)) ∧
  maskedAnd 0 0xffffffff 0 0xffffffff 0 = 0xffffffff

/-- A round on shares is the unmasked round on the true values, whatever the masks (42_cipher R166, R169). -/
def Obligations.RoundFollowsThePlainRound : Prop :=
  ∀ (sh : Shares) (mc k : Word),
    let sh' := cipherRound sh mc k
    let x := sh.x ^^^ sh.mx
    let y := sh.y ^^^ sh.my
    sh'.x ^^^ sh'.mx = y ^^^ (rotl x 1 &&& rotl x 8) ^^^ rotl x 2 ^^^ k ∧ sh'.y ^^^ sh'.my = x

/-- `ENCRYPT` with key and seed answers a next state computed through the shares: the masks are the 46 big-endian words of
`Generate(184)`, the halves are blinded by the first two, round r takes `masks[r+2]` and `KS[r]` with every right-hand side from
before the round, and the response is `0x00` and the unmasked halves (42_cipher R163, R164, R166). -/
def Obligations.EncryptFollowsTheMaskedRounds : Prop :=
  ∀ (plaintext : Bytes 8) (s : State), s.keyed = true → s.seeded = true →
    ∃ (masks : Nat → Word) (sh : Nat → Shares) (t : State),
      (∀ j < 46, (masks j).toNat = intOf (((hashGen s.v 184).toList.drop (4 * j)).take 4)) ∧
      (sh 0).mx = masks 0 ∧ (sh 0).my = masks 1 ∧
      ((sh 0).x ^^^ masks 0).toNat = intOf (plaintext.toList.take 4) ∧
      ((sh 0).y ^^^ masks 1).toNat = intOf (plaintext.toList.drop 4) ∧
      (∀ (r : Nat) (_ : r < 44), sh (r + 1) =
        { x := (sh r).y ^^^ maskedAnd (rotl (sh r).x 1) (rotl (sh r).mx 1) (rotl (sh r).x 8) (rotl (sh r).mx 8) (masks (r + 2))
            ^^^ rotl (sh r).x 2 ^^^ s.ks[r]
          mx := (sh r).my ^^^ masks (r + 2) ^^^ rotl (sh r).mx 2
          y := (sh r).x
          my := (sh r).mx }) ∧
      exec (.encrypt plaintext) s = .next t ∧
      t.resp = s.resp ++ 0x00 :: (be 4 ((sh 44).x ^^^ (sh 44).mx).toNat ++ be 4 ((sh 44).y ^^^ (sh 44).my).toNat) ∧
      t = { s with v := t.v, gc := t.gc, resp := t.resp }

/-- `ENCRYPT` with key and seed answers a next state: the response is `0x00` and the unmasked encryption of the block under
`KS`, whatever the masks were; the generator has made one generation; nothing else changes (42_cipher R163, R169). -/
def Obligations.EncryptIsThePlainCipher : Prop :=
  ∀ (plaintext : Bytes 8) (s : State), s.keyed = true → s.seeded = true → ∃ (v : Bytes 55) (gc : BitVec 64),
    exec (.encrypt plaintext) s =
      .next { s with v := v, gc := gc, resp := s.resp ++ 0x00 :: plainEncrypt s.ks.toList plaintext.toList } ∧
    UpdatedTo s.v s.c s.gc v gc

/-- `KEY_NOT_SET`: `ENCRYPT` while `KEYED` = 0 responds `0x03`, sets `F_KEY_NOT_SET` and changes nothing else, the generator
included, seeded or not (60_exceptions R197, R193). -/
def Obligations.KeyNotSetIsReported : Prop :=
  ∀ (plaintext : Bytes 8) (s : State), s.keyed = false →
    exec (.encrypt plaintext) s = .next { s with fKeyNotSet := true, resp := s.resp ++ [0x03] }

/-- How `ENCRYPT` ends in each case of `KEYED` and `SEEDED`; when both are 0 only `KEY_NOT_SET` is reported and only its sticky
bit is set (60_exceptions R198). -/
def Obligations.EncryptReportsTheFirstMissingPrecondition : Prop :=
  ∀ (plaintext : Bytes 8) (s : State), ∃ t block,
    exec (.encrypt plaintext) s = .next t ∧ block.length = 8 ∧
    t.resp = s.resp ++ (if s.keyed = false then [0x03] else if s.seeded = false then [0x02] else 0x00 :: block) ∧
    t.fKeyNotSet = (s.fKeyNotSet || !s.keyed) ∧ t.fNotSeeded = (s.fNotSeeded || (s.keyed && !s.seeded)) ∧
    t.fIllegal = s.fIllegal

/-- The generator influences no response byte of the cipher half: two blocks that differ only in `V`, `C` and `GC`, both
seeded or both not, answer the same to any series of `SET_KEY` and `ENCRYPT`, and still differ only there (42_cipher R169). -/
def Obligations.CipherResponsesIgnoreTheGenerator : Prop :=
  ∀ (is : List Instr) (s t : State), AgreeButGenerator s t → is.all isCipher = true →
    ∃ s' t', execAll is s = .next s' ∧ execAll is t = .next t' ∧ AgreeButGenerator s' t'

/-- With `Z_SEQ` at the spec's default, a seeded block answers the published vector: key `1b1a1918 13121110 0b0a0908 03020100`,
plaintext `656b696c 20646e75`, ciphertext `44c8fc20 b9dfa07a` (42_cipher R170; the premise on `Z_SEQ` is 00_scope R12, D12). -/
def Obligations.PublishedVectorWithDefaultZSeq : Prop :=
  ∀ s : State, s.zSeq = 0x36EB19781229CD0F → s.seeded = true →
    ∃ t, execAll [
        .setKey #v[0x1b, 0x1a, 0x19, 0x18, 0x13, 0x12, 0x11, 0x10, 0x0b, 0x0a, 0x09, 0x08, 0x03, 0x02, 0x01, 0x00],
        .encrypt #v[0x65, 0x6b, 0x69, 0x6c, 0x20, 0x64, 0x6e, 0x75]] s = .next t ∧
      t.resp = s.resp ++ [0x00, 0x00, 0x44, 0xc8, 0xfc, 0x20, 0xb9, 0xdf, 0xa0, 0x7a]

/-! ### The whole machine -/

/-- The table of state written by each command (10_state R37), as frames: `C` and `SEEDED` by `SEED` alone, `KS` and `KEYED` by
`SET_KEY` alone, `V` and `GC` not by `SET_KEY`; and no command touches the streams' other ends, the host's moves, the samples,
the parameter or the count of resets. -/
def Obligations.CommandsWriteOnlyTheirState : Prop :=
  ∀ (i : Instr) (s t : State), exec i s = .next t →
    t.cmd = s.cmd ∧ t.host = s.host ∧ t.samples = s.samples ∧ t.zSeq = s.zSeq ∧ t.resets = s.resets ∧
    t.fIllegal = s.fIllegal ∧
    ((∀ e, i ≠ .seed e) → t.c = s.c ∧ t.seeded = s.seeded) ∧
    ((∀ key, i ≠ .setKey key) → t.ks = s.ks ∧ t.keyed = s.keyed) ∧
    ((∃ key, i = .setKey key) → t.v = s.v ∧ t.gc = s.gc)

/-- Every command emits exactly one response: a status byte, and a payload only when it is `0x00`, of the size of 30_encoding
R80: none for `SEED` and `SET_KEY`, `length` bytes for `FILL`, 8 for `ENCRYPT`. -/
def Obligations.EveryCommandEmitsOneResponse : Prop :=
  ∀ (i : Instr) (s : State), ∃ t status payload, exec i s = .next t ∧ t.resp = s.resp ++ status :: payload ∧
    (status ≠ 0x00 → payload = []) ∧
    (status = 0x00 → payload.length = payloadLength i)

/-- Which command can end with which status (60_exceptions R192, R191): `SEED` and `SET_KEY` always `0x00`; `FILL` with `0x00` or
`0x02`; `ENCRYPT` with `0x00`, `0x02` or `0x03`; an illegal opcode always with `0x01`; and the faults named do occur, from reset.
That host moves pending in `s.host` wait while the illegal opcode is consumed is the model's schedule (log 4). -/
def Obligations.StatusCodesOfEachCommand : Prop :=
  (∀ (e : Bytes 48) (s : State), ∃ t, exec (.seed e) s = .next t ∧ t.resp = s.resp ++ [0x00]) ∧
  (∀ (key : Bytes 16) (s : State), ∃ t, exec (.setKey key) s = .next t ∧ t.resp = s.resp ++ [0x00]) ∧
  (∀ (n : BitVec 32) (s t : State), exec (.fill n) s = .next t →
    ∃ status payload, t.resp = s.resp ++ status :: payload ∧ (status = 0x00 ∨ status = 0x02)) ∧
  (∀ (p : Bytes 8) (s t : State), exec (.encrypt p) s = .next t →
    ∃ status payload, t.resp = s.resp ++ status :: payload ∧ (status = 0x00 ∨ status = 0x02 ∨ status = 0x03)) ∧
  (∀ (s : State) (op : Byte) (rest : List Byte), s.cmd = op :: rest → op ≠ 0x01 → op ≠ 0x02 → op ≠ 0x03 → op ≠ 0x04 →
    ∃ t, step s = .next t ∧ t.resp = s.resp ++ [0x01]) ∧
  (∀ n : BitVec 32, ∃ t, exec (.fill n) State.reset = .next t ∧ t.resp = [0x02]) ∧
  (∀ p : Bytes 8, ∃ t, exec (.encrypt p) State.reset = .next t ∧ t.resp = [0x03]) ∧
  (∀ (key : Bytes 16) (p : Bytes 8), ∃ t, execAll [.setKey key, .encrypt p] State.reset = .next t ∧ t.resp = [0x00, 0x02])

/-- A command that responds a non-zero status changes `V`, `C`, `GC`, `KS`, `SEEDED` and `KEYED` not at all, and of the sticky bits
exactly its own (60_exceptions R194). -/
def Obligations.FaultingCommandChangesOnlyItsStickyBit : Prop :=
  ∀ (i : Instr) (s t : State) (status : Byte) (payload : List Byte), exec i s = .next t →
    t.resp = s.resp ++ status :: payload → status ≠ 0x00 →
    t = { s with
      fNotSeeded := s.fNotSeeded || decide (status = 0x02)
      fKeyNotSet := s.fKeyNotSet || decide (status = 0x03)
      resp := s.resp ++ [status] }

/-- Reset is the only event that clears `SEEDED`, `KEYED` or a sticky fault bit (70_reset_and_hazards R220, 10_state R27, R28, R31).
That the block was waiting when the host reset it is the model's schedule (log 4; R231 lets the host reset at any time), and a
reset inside a command is the model's move `resetDuring` (log 7; R221). -/
def Obligations.OnlyResetClearsFlags : Prop :=
  ∀ s t : State, step s = .next t →
    (t.seeded = false ∧ s.seeded = true) ∨ (t.keyed = false ∧ s.keyed = true) ∨ (t.fIllegal = false ∧ s.fIllegal = true) ∨
      (t.fNotSeeded = false ∧ s.fNotSeeded = true) ∨ (t.fKeyNotSet = false ∧ s.fKeyNotSet = true) →
    decode s.cmd = .incomplete ∧ ∃ moves, s.host = .reset :: moves ∨ ∃ bytes k, s.host = .resetDuring bytes k :: moves

/-- No step reads `V`, `C` or `GC` while `SEEDED` = 0, nor `KS` while `KEYED` = 0: two machines that differ only in those take steps
to machines that differ only in those, so they emit the same bytes and show the same `STATUS` (10_state R38).
The host's moves as steps are the model's (logs 4, 7), and after a reset both machines hold the same free values (log 2). -/
def Obligations.UnwrittenStateIsNeverRead : Prop :=
  ∀ s t : State, AgreeWhereWritten s t → ∃ s' t', step s = .next s' ∧ step t = .next t' ∧ AgreeWhereWritten s' t'

/-- With seed and key in place no command faults, whatever the commands: no sticky bit changes, and both flags stay
(70_reset_and_hazards R222, R224; 60_exceptions R196, R197). -/
def Obligations.InitialisedBlockNeverFaults : Prop :=
  ∀ (is : List Instr) (s : State), s.seeded = true → s.keyed = true →
    ∃ t, execAll is s = .next t ∧ t.seeded = true ∧ t.keyed = true ∧ t.fIllegal = s.fIllegal ∧
      t.fNotSeeded = s.fNotSeeded ∧ t.fKeyNotSet = s.fKeyNotSet

/-- After any series of legal commands `SEEDED` is 1 exactly when it was before or a `SEED` was among them, and `KEYED` exactly
when it was before or a `SET_KEY` was (10_state R27, R28). -/
def Obligations.FlagsRecordSeedAndSetKey : Prop :=
  ∀ (is : List Instr) (s : State), ∃ t, execAll is s = .next t ∧
    t.seeded = (s.seeded || is.any isSeed) ∧ t.keyed = (s.keyed || is.any isSetKey)
end

