-- ==== Sys2Proof/Laws/State.lean ====
section
/-! SUPPORT. One lemma per field per named update of the state, so that no proof unfolds a record update. -/

namespace Sys2Proof.Machine

/-! `receive` -/

@[simp] theorem receive_v (bytes : List Byte) (s : State) : (receive bytes s).v = s.v := rfl
@[simp] theorem receive_c (bytes : List Byte) (s : State) : (receive bytes s).c = s.c := rfl
@[simp] theorem receive_gc (bytes : List Byte) (s : State) : (receive bytes s).gc = s.gc := rfl
@[simp] theorem receive_ks (bytes : List Byte) (s : State) : (receive bytes s).ks = s.ks := rfl
@[simp] theorem receive_seeded (bytes : List Byte) (s : State) : (receive bytes s).seeded = s.seeded := rfl
@[simp] theorem receive_keyed (bytes : List Byte) (s : State) : (receive bytes s).keyed = s.keyed := rfl
@[simp] theorem receive_fIllegal (bytes : List Byte) (s : State) : (receive bytes s).fIllegal = s.fIllegal := rfl
@[simp] theorem receive_fNotSeeded (bytes : List Byte) (s : State) : (receive bytes s).fNotSeeded = s.fNotSeeded := rfl
@[simp] theorem receive_fKeyNotSet (bytes : List Byte) (s : State) : (receive bytes s).fKeyNotSet = s.fKeyNotSet := rfl
@[simp] theorem receive_cmd (bytes : List Byte) (s : State) : (receive bytes s).cmd = s.cmd ++ bytes := rfl
@[simp] theorem receive_resp (bytes : List Byte) (s : State) : (receive bytes s).resp = s.resp := rfl
@[simp] theorem receive_host (bytes : List Byte) (s : State) : (receive bytes s).host = s.host := rfl
@[simp] theorem receive_samples (bytes : List Byte) (s : State) : (receive bytes s).samples = s.samples := rfl
@[simp] theorem receive_zSeq (bytes : List Byte) (s : State) : (receive bytes s).zSeq = s.zSeq := rfl
@[simp] theorem receive_resets (bytes : List Byte) (s : State) : (receive bytes s).resets = s.resets := rfl

/-! `consumeTo` -/

@[simp] theorem consumeTo_v (rest : List Byte) (s : State) : (consumeTo rest s).v = s.v := rfl
@[simp] theorem consumeTo_c (rest : List Byte) (s : State) : (consumeTo rest s).c = s.c := rfl
@[simp] theorem consumeTo_gc (rest : List Byte) (s : State) : (consumeTo rest s).gc = s.gc := rfl
@[simp] theorem consumeTo_ks (rest : List Byte) (s : State) : (consumeTo rest s).ks = s.ks := rfl
@[simp] theorem consumeTo_seeded (rest : List Byte) (s : State) : (consumeTo rest s).seeded = s.seeded := rfl
@[simp] theorem consumeTo_keyed (rest : List Byte) (s : State) : (consumeTo rest s).keyed = s.keyed := rfl
@[simp] theorem consumeTo_fIllegal (rest : List Byte) (s : State) : (consumeTo rest s).fIllegal = s.fIllegal := rfl
@[simp] theorem consumeTo_fNotSeeded (rest : List Byte) (s : State) : (consumeTo rest s).fNotSeeded = s.fNotSeeded := rfl
@[simp] theorem consumeTo_fKeyNotSet (rest : List Byte) (s : State) : (consumeTo rest s).fKeyNotSet = s.fKeyNotSet := rfl
@[simp] theorem consumeTo_cmd (rest : List Byte) (s : State) : (consumeTo rest s).cmd = rest := rfl
@[simp] theorem consumeTo_resp (rest : List Byte) (s : State) : (consumeTo rest s).resp = s.resp := rfl
@[simp] theorem consumeTo_host (rest : List Byte) (s : State) : (consumeTo rest s).host = s.host := rfl
@[simp] theorem consumeTo_samples (rest : List Byte) (s : State) : (consumeTo rest s).samples = s.samples := rfl
@[simp] theorem consumeTo_zSeq (rest : List Byte) (s : State) : (consumeTo rest s).zSeq = s.zSeq := rfl
@[simp] theorem consumeTo_resets (rest : List Byte) (s : State) : (consumeTo rest s).resets = s.resets := rfl

/-! `emit` -/

@[simp] theorem emit_v (bytes : List Byte) (s : State) : (emit bytes s).v = s.v := rfl
@[simp] theorem emit_c (bytes : List Byte) (s : State) : (emit bytes s).c = s.c := rfl
@[simp] theorem emit_gc (bytes : List Byte) (s : State) : (emit bytes s).gc = s.gc := rfl
@[simp] theorem emit_ks (bytes : List Byte) (s : State) : (emit bytes s).ks = s.ks := rfl
@[simp] theorem emit_seeded (bytes : List Byte) (s : State) : (emit bytes s).seeded = s.seeded := rfl
@[simp] theorem emit_keyed (bytes : List Byte) (s : State) : (emit bytes s).keyed = s.keyed := rfl
@[simp] theorem emit_fIllegal (bytes : List Byte) (s : State) : (emit bytes s).fIllegal = s.fIllegal := rfl
@[simp] theorem emit_fNotSeeded (bytes : List Byte) (s : State) : (emit bytes s).fNotSeeded = s.fNotSeeded := rfl
@[simp] theorem emit_fKeyNotSet (bytes : List Byte) (s : State) : (emit bytes s).fKeyNotSet = s.fKeyNotSet := rfl
@[simp] theorem emit_cmd (bytes : List Byte) (s : State) : (emit bytes s).cmd = s.cmd := rfl
@[simp] theorem emit_resp (bytes : List Byte) (s : State) : (emit bytes s).resp = s.resp ++ bytes := rfl
@[simp] theorem emit_host (bytes : List Byte) (s : State) : (emit bytes s).host = s.host := rfl
@[simp] theorem emit_samples (bytes : List Byte) (s : State) : (emit bytes s).samples = s.samples := rfl
@[simp] theorem emit_zSeq (bytes : List Byte) (s : State) : (emit bytes s).zSeq = s.zSeq := rfl
@[simp] theorem emit_resets (bytes : List Byte) (s : State) : (emit bytes s).resets = s.resets := rfl

/-! `complete` -/

@[simp] theorem complete_v (payload : List Byte) (s : State) : (complete payload s).v = s.v := rfl
@[simp] theorem complete_c (payload : List Byte) (s : State) : (complete payload s).c = s.c := rfl
@[simp] theorem complete_gc (payload : List Byte) (s : State) : (complete payload s).gc = s.gc := rfl
@[simp] theorem complete_ks (payload : List Byte) (s : State) : (complete payload s).ks = s.ks := rfl
@[simp] theorem complete_seeded (payload : List Byte) (s : State) : (complete payload s).seeded = s.seeded := rfl
@[simp] theorem complete_keyed (payload : List Byte) (s : State) : (complete payload s).keyed = s.keyed := rfl
@[simp] theorem complete_fIllegal (payload : List Byte) (s : State) : (complete payload s).fIllegal = s.fIllegal := rfl
@[simp] theorem complete_fNotSeeded (payload : List Byte) (s : State) : (complete payload s).fNotSeeded = s.fNotSeeded := rfl
@[simp] theorem complete_fKeyNotSet (payload : List Byte) (s : State) : (complete payload s).fKeyNotSet = s.fKeyNotSet := rfl
@[simp] theorem complete_cmd (payload : List Byte) (s : State) : (complete payload s).cmd = s.cmd := rfl
@[simp] theorem complete_resp (payload : List Byte) (s : State) : (complete payload s).resp = s.resp ++ okCode :: payload := rfl
@[simp] theorem complete_host (payload : List Byte) (s : State) : (complete payload s).host = s.host := rfl
@[simp] theorem complete_samples (payload : List Byte) (s : State) : (complete payload s).samples = s.samples := rfl
@[simp] theorem complete_zSeq (payload : List Byte) (s : State) : (complete payload s).zSeq = s.zSeq := rfl
@[simp] theorem complete_resets (payload : List Byte) (s : State) : (complete payload s).resets = s.resets := rfl

/-! `stateUpdate` -/

@[simp] theorem stateUpdate_v (s : State) : (stateUpdate s).v = addAccumulate (addAccumulate (addAccumulate s.v (updateHash s.v)) s.c) (beBytes 8 s.gc.toNat) := rfl
@[simp] theorem stateUpdate_c (s : State) : (stateUpdate s).c = s.c := rfl
@[simp] theorem stateUpdate_gc (s : State) : (stateUpdate s).gc = s.gc + 1 := rfl
@[simp] theorem stateUpdate_ks (s : State) : (stateUpdate s).ks = s.ks := rfl
@[simp] theorem stateUpdate_seeded (s : State) : (stateUpdate s).seeded = s.seeded := rfl
@[simp] theorem stateUpdate_keyed (s : State) : (stateUpdate s).keyed = s.keyed := rfl
@[simp] theorem stateUpdate_fIllegal (s : State) : (stateUpdate s).fIllegal = s.fIllegal := rfl
@[simp] theorem stateUpdate_fNotSeeded (s : State) : (stateUpdate s).fNotSeeded = s.fNotSeeded := rfl
@[simp] theorem stateUpdate_fKeyNotSet (s : State) : (stateUpdate s).fKeyNotSet = s.fKeyNotSet := rfl
@[simp] theorem stateUpdate_cmd (s : State) : (stateUpdate s).cmd = s.cmd := rfl
@[simp] theorem stateUpdate_resp (s : State) : (stateUpdate s).resp = s.resp := rfl
@[simp] theorem stateUpdate_host (s : State) : (stateUpdate s).host = s.host := rfl
@[simp] theorem stateUpdate_samples (s : State) : (stateUpdate s).samples = s.samples := rfl
@[simp] theorem stateUpdate_zSeq (s : State) : (stateUpdate s).zSeq = s.zSeq := rfl
@[simp] theorem stateUpdate_resets (s : State) : (stateUpdate s).resets = s.resets := rfl

/-! `sampleStatus` -/

@[simp] theorem sampleStatus_v (s : State) : (sampleStatus s).v = s.v := rfl
@[simp] theorem sampleStatus_c (s : State) : (sampleStatus s).c = s.c := rfl
@[simp] theorem sampleStatus_gc (s : State) : (sampleStatus s).gc = s.gc := rfl
@[simp] theorem sampleStatus_ks (s : State) : (sampleStatus s).ks = s.ks := rfl
@[simp] theorem sampleStatus_seeded (s : State) : (sampleStatus s).seeded = s.seeded := rfl
@[simp] theorem sampleStatus_keyed (s : State) : (sampleStatus s).keyed = s.keyed := rfl
@[simp] theorem sampleStatus_fIllegal (s : State) : (sampleStatus s).fIllegal = s.fIllegal := rfl
@[simp] theorem sampleStatus_fNotSeeded (s : State) : (sampleStatus s).fNotSeeded = s.fNotSeeded := rfl
@[simp] theorem sampleStatus_fKeyNotSet (s : State) : (sampleStatus s).fKeyNotSet = s.fKeyNotSet := rfl
@[simp] theorem sampleStatus_cmd (s : State) : (sampleStatus s).cmd = s.cmd := rfl
@[simp] theorem sampleStatus_resp (s : State) : (sampleStatus s).resp = s.resp := rfl
@[simp] theorem sampleStatus_host (s : State) : (sampleStatus s).host = s.host := rfl
@[simp] theorem sampleStatus_samples (s : State) : (sampleStatus s).samples = s.samples ++ [s.status] := rfl
@[simp] theorem sampleStatus_zSeq (s : State) : (sampleStatus s).zSeq = s.zSeq := rfl
@[simp] theorem sampleStatus_resets (s : State) : (sampleStatus s).resets = s.resets := rfl

/-! `resetBlock` -/

@[simp] theorem resetBlock_v (s : State) : (resetBlock s).v = Config.resetV (s.resets + 1) := rfl
@[simp] theorem resetBlock_c (s : State) : (resetBlock s).c = Config.resetC (s.resets + 1) := rfl
@[simp] theorem resetBlock_gc (s : State) : (resetBlock s).gc = Config.resetGc (s.resets + 1) := rfl
@[simp] theorem resetBlock_ks (s : State) : (resetBlock s).ks = Config.resetKs (s.resets + 1) := rfl
@[simp] theorem resetBlock_seeded (s : State) : (resetBlock s).seeded = false := rfl
@[simp] theorem resetBlock_keyed (s : State) : (resetBlock s).keyed = false := rfl
@[simp] theorem resetBlock_fIllegal (s : State) : (resetBlock s).fIllegal = false := rfl
@[simp] theorem resetBlock_fNotSeeded (s : State) : (resetBlock s).fNotSeeded = false := rfl
@[simp] theorem resetBlock_fKeyNotSet (s : State) : (resetBlock s).fKeyNotSet = false := rfl
@[simp] theorem resetBlock_cmd (s : State) : (resetBlock s).cmd = [] := rfl
@[simp] theorem resetBlock_resp (s : State) : (resetBlock s).resp = s.resp := rfl
@[simp] theorem resetBlock_host (s : State) : (resetBlock s).host = s.host := rfl
@[simp] theorem resetBlock_samples (s : State) : (resetBlock s).samples = s.samples := rfl
@[simp] theorem resetBlock_zSeq (s : State) : (resetBlock s).zSeq = s.zSeq := rfl
@[simp] theorem resetBlock_resets (s : State) : (resetBlock s).resets = s.resets + 1 := rfl

/-! `raise` and `setSticky`, which split on the fault -/

@[simp] theorem setSticky_v (f : Fault) (s : State) : (setSticky f s).v = s.v := by cases f <;> rfl
@[simp] theorem setSticky_c (f : Fault) (s : State) : (setSticky f s).c = s.c := by cases f <;> rfl
@[simp] theorem setSticky_gc (f : Fault) (s : State) : (setSticky f s).gc = s.gc := by cases f <;> rfl
@[simp] theorem setSticky_ks (f : Fault) (s : State) : (setSticky f s).ks = s.ks := by cases f <;> rfl
@[simp] theorem setSticky_seeded (f : Fault) (s : State) : (setSticky f s).seeded = s.seeded := by cases f <;> rfl
@[simp] theorem setSticky_keyed (f : Fault) (s : State) : (setSticky f s).keyed = s.keyed := by cases f <;> rfl
@[simp] theorem setSticky_fIllegal (f : Fault) (s : State) : (setSticky f s).fIllegal = (s.fIllegal || decide (f = .illegalCommand)) := by
  cases f <;> simp [setSticky]
@[simp] theorem setSticky_fNotSeeded (f : Fault) (s : State) : (setSticky f s).fNotSeeded = (s.fNotSeeded || decide (f = .notSeeded)) := by
  cases f <;> simp [setSticky]
@[simp] theorem setSticky_fKeyNotSet (f : Fault) (s : State) : (setSticky f s).fKeyNotSet = (s.fKeyNotSet || decide (f = .keyNotSet)) := by
  cases f <;> simp [setSticky]
@[simp] theorem setSticky_cmd (f : Fault) (s : State) : (setSticky f s).cmd = s.cmd := by cases f <;> rfl
@[simp] theorem setSticky_resp (f : Fault) (s : State) : (setSticky f s).resp = s.resp := by cases f <;> rfl
@[simp] theorem setSticky_host (f : Fault) (s : State) : (setSticky f s).host = s.host := by cases f <;> rfl
@[simp] theorem setSticky_samples (f : Fault) (s : State) : (setSticky f s).samples = s.samples := by cases f <;> rfl
@[simp] theorem setSticky_zSeq (f : Fault) (s : State) : (setSticky f s).zSeq = s.zSeq := by cases f <;> rfl
@[simp] theorem setSticky_resets (f : Fault) (s : State) : (setSticky f s).resets = s.resets := by cases f <;> rfl

/-- Everything `raise` does: the sticky bit of the fault and its one response byte (60_exceptions R193, R194). -/
theorem raise_eq (f : Fault) (s : State) :
    raise f s = { s with
      fIllegal := s.fIllegal || decide (f = .illegalCommand)
      fNotSeeded := s.fNotSeeded || decide (f = .notSeeded)
      fKeyNotSet := s.fKeyNotSet || decide (f = .keyNotSet)
      resp := s.resp ++ [faultCode f] } := by
  cases f <;> simp [raise, setSticky, emit]

/-- Everything `generate` does: the output is `hash_gen` of the old `V`, and of the state `V` and `GC` alone change (41_drbg_commands
R145, R149). -/
theorem generate_eq (outLength : Nat) (s : State) :
    (generate outLength s).1 = hashGen s.v outLength ∧
    (generate outLength s).2 = { s with v := (stateUpdate s).v, gc := s.gc + 1 } := ⟨rfl, rfl⟩

/-- Everything `complete` does: one response, status first (30_encoding R80). -/
theorem complete_eq (payload : List Byte) (s : State) :
    complete payload s = { s with resp := s.resp ++ 0x00 :: payload } := rfl

/-- What a reset during a command keeps of it: the first bytes of its response, and nothing of its effects on the block
(70_reset_and_hazards R221). -/
theorem cutByReset_eq (emitted : Nat) (before after : State) :
    cutByReset emitted before after =
      { resetBlock after with resp := after.resp.take (before.resp.length + emitted) } := rfl

end Sys2Proof.Machine
end

