-- ==== Sys2Proof/Laws/Commands.lean ====
section
/-! SUPPORT. What each command does in each of its cases, and the one inversion lemma over all of them. -/

namespace Sys2Proof.Machine

/-- `FILL` on a seeded block (41_drbg_commands R144). -/
theorem execFill_of_seeded (length : BitVec 32) {s : State} (h : s.seeded = true) :
    execFill length s = .next (complete (hashGen s.v length.toNat).toList (stateUpdate s)) := if_pos h

/-- `FILL` on a block without seed (60_exceptions R196). -/
theorem execFill_of_not_seeded (length : BitVec 32) {s : State} (h : s.seeded = false) :
    execFill length s = .next (raise .notSeeded s) := if_neg (by simp [h])

/-- `ENCRYPT` on a block with key and seed (42_cipher_commands R163). -/
theorem execEncrypt_of_ready (plaintext : Bytes 8) {s : State} (hk : s.keyed = true) (hs : s.seeded = true) :
    execEncrypt plaintext s = .next (complete
      (unmask (cipherRounds (hashGen s.v Config.maskBytes).toList s.ks.toList
        (blind (hashGen s.v Config.maskBytes).toList plaintext.toList)))
      (stateUpdate s)) := (if_pos hk).trans (if_pos hs)

/-- `ENCRYPT` on a block with a key and without seed (60_exceptions R196). -/
theorem execEncrypt_of_not_seeded (plaintext : Bytes 8) {s : State} (hk : s.keyed = true) (hs : s.seeded = false) :
    execEncrypt plaintext s = .next (raise .notSeeded s) := (if_pos hk).trans (if_neg (by simp [hs]))

/-- `ENCRYPT` on a block without key (60_exceptions R197). -/
theorem execEncrypt_of_not_keyed (plaintext : Bytes 8) {s : State} (hk : s.keyed = false) :
    execEncrypt plaintext s = .next (raise .keyNotSet s) := if_neg (by simp [hk])

/-- Everything a command can do: complete as `SEED` or `SET_KEY`, fault without other effect, or complete as a generation. -/
theorem exec_cases (i : Instr) (s : State) :
    (∃ material v c, i = .seed material ∧
      exec i s = .next (complete [] { s with v := v, c := c, gc := 0, seeded := true })) ∨
    (∃ key, i = .setKey key ∧
      exec i s = .next (complete [] { s with ks := keySchedule s.zSeq key, keyed := true })) ∨
    (((∃ length, i = .fill length) ∨ ∃ plaintext, i = .encrypt plaintext ∧ s.keyed = true) ∧ s.seeded = false ∧
      exec i s = .next (raise .notSeeded s)) ∨
    (∃ plaintext, i = .encrypt plaintext ∧ s.keyed = false ∧ exec i s = .next (raise .keyNotSet s)) ∨
    (((∃ length, i = .fill length) ∨ ∃ plaintext, i = .encrypt plaintext ∧ s.keyed = true) ∧ s.seeded = true ∧
      ∃ payload, exec i s = .next (complete payload (stateUpdate s))) := by
  cases i with
  | seed material => exact .inl ⟨material, _, _, rfl, rfl⟩
  | setKey key => exact .inr (.inl ⟨key, rfl, rfl⟩)
  | fill length =>
    cases h : s.seeded with
    | false => exact .inr (.inr (.inl ⟨.inl ⟨length, rfl⟩, rfl, execFill_of_not_seeded length h⟩))
    | true => exact .inr (.inr (.inr (.inr ⟨.inl ⟨length, rfl⟩, rfl, _, execFill_of_seeded length h⟩)))
  | encrypt plaintext =>
    cases hk : s.keyed with
    | false => exact .inr (.inr (.inr (.inl ⟨plaintext, rfl, rfl, execEncrypt_of_not_keyed plaintext hk⟩)))
    | true =>
      cases hs : s.seeded with
      | false => exact .inr (.inr (.inl ⟨.inr ⟨plaintext, rfl, rfl⟩, rfl, execEncrypt_of_not_seeded plaintext hk hs⟩))
      | true => exact .inr (.inr (.inr (.inr ⟨.inr ⟨plaintext, rfl, rfl⟩, rfl, _, execEncrypt_of_ready plaintext hk hs⟩)))

end Sys2Proof.Machine
end

