-- ==== Sys2Proof/Laws/Operands.lean ====
section
/-! SUPPORT. What the byte-string operations and the command framing do, said once. -/

namespace Sys2Proof.Machine

@[simp] theorem be_length_eq (n v : Nat) : (be n v).length = n := be_length n v

@[simp] theorem bytesOf_toList {n : Nat} (s : List Byte) (h : s.length = n) : (bytesOf s h).toList = s := rfl

@[simp] theorem beBytes_toList (n v : Nat) : (beBytes n v).toList = be n v := rfl

/-- The integer of a byte string fits its length (00_scope R17). -/
theorem intOf_lt (s : List Byte) : intOf s < 256 ^ s.length := by
  induction s with
  | nil => decide
  | cons b s ih =>
    have hb : b.toNat < 256 := b.isLt
    have : b.toNat * 256 ^ s.length + 256 ^ s.length ≤ 256 * 256 ^ s.length := by
      rw [← Nat.succ_mul]; exact Nat.mul_le_mul_right _ hb
    simp only [intOf, List.length_cons, Nat.pow_succ]
    omega

/-- The integer of a concatenation, the first part on top (00_scope R17). -/
theorem intOf_append (s t : List Byte) : intOf (s ++ t) = intOf s * 256 ^ t.length + intOf t := by
  induction s with
  | nil => simp [intOf]
  | cons b s ih => simp only [List.cons_append, intOf, ih, List.length_append, Nat.pow_add]; ring

/-- `takeOperand` in full: it answers exactly when `n` bytes are there, with those bytes and what follows (20_memory R62). -/
theorem takeOperand_eq_some {n : Nat} {s rest : List Byte} {operand : Bytes n} :
    takeOperand n s = some (operand, rest) ↔ s = operand.toList ++ rest := by
  unfold takeOperand
  split
  · next h =>
    simp only [Option.some.injEq, Prod.mk.injEq]
    constructor
    · rintro ⟨rfl, rfl⟩
      simp
    · rintro rfl
      have hlen : operand.toList.length = n := operand.length_toList
      exact ⟨Vector.toList_inj.mp (by simp [hlen]), by simp [hlen]⟩
  · next h =>
    constructor
    · intro h'; cases h'
    · rintro rfl
      exact absurd (by simp) h

/-- `takeOperand` answers nothing exactly when bytes are missing (20_memory R62). -/
theorem takeOperand_eq_none {n : Nat} {s : List Byte} : takeOperand n s = none ↔ s.length < n := by
  unfold takeOperand
  split <;> simp <;> omega

/-- `decodeOperand` in full, when a command comes out of it. -/
theorem decodeOperand_eq_command {n : Nat} {make : Bytes n → Instr} {s rest : List Byte} {i : Instr} :
    decodeOperand n make s = .command i rest ↔ ∃ operand, i = make operand ∧ s = operand.toList ++ rest := by
  unfold decodeOperand
  cases h : takeOperand n s with
  | none =>
    simp only [reduceCtorEq, false_iff]
    rintro ⟨operand, -, rfl⟩
    rw [takeOperand_eq_none] at h
    simp at h
  | some p =>
    obtain ⟨operand, rest'⟩ := p
    rw [takeOperand_eq_some] at h
    simp only [Decoded.command.injEq]
    constructor
    · rintro ⟨rfl, rfl⟩; exact ⟨operand, rfl, h⟩
    · rintro ⟨operand', rfl, h'⟩
      have := (takeOperand_eq_some (operand := operand)).mpr h
      rw [takeOperand_eq_some.mpr h'] at this
      simp only [Option.some.injEq, Prod.mk.injEq] at this
      exact ⟨by rw [this.1], this.2.symm⟩

end Sys2Proof.Machine
end

