-- ==== Sys2Proof/Laws/PerInstr.lean ====
section
/-! SUPPORT. A statement made per command: its encoding has the length the opcode fixes, and its raw form passes both checks
of well-formedness. -/

namespace Sys2Proof.Laws.EncodedLength

open Sys2Proof.Machine

/-- The encoding of a command is as long as its first byte says (30_encoding R71, R72), and the command is well-formed. -/
def Statement (i : Instr) : Prop := (encode i).length = commandLength (opcodeOf i) ∧ i.wf = true

theorem seed (material : Bytes 48) : Statement (.seed material) := by
  simp [Statement, encode, operandOf, opcodeOf, commandLength, operandLength, Instr.wf, Instr.raw, RawCommand.wf,
    RawCommand.legalOpcode, RawCommand.rightSize]

theorem fill (length : BitVec 32) : Statement (.fill length) := by
  simp [Statement, encode, operandOf, opcodeOf, commandLength, operandLength, Instr.wf, Instr.raw, RawCommand.wf,
    RawCommand.legalOpcode, RawCommand.rightSize, opSeed, opFill]

theorem setKey (key : Bytes 16) : Statement (.setKey key) := by
  simp [Statement, encode, operandOf, opcodeOf, commandLength, operandLength, Instr.wf, Instr.raw, RawCommand.wf,
    RawCommand.legalOpcode, RawCommand.rightSize, opSeed, opFill, opSetKey]

theorem encrypt (plaintext : Bytes 8) : Statement (.encrypt plaintext) := by
  simp [Statement, encode, operandOf, opcodeOf, commandLength, operandLength, Instr.wf, Instr.raw, RawCommand.wf,
    RawCommand.legalOpcode, RawCommand.rightSize, opSeed, opFill, opSetKey, opEncrypt]

end Sys2Proof.Laws.EncodedLength
end

