-- ==== Sys2Proof/Tests/Slice0.lean ====
section
/-! SUPPORT. Tests with results taken from the spec (30_encoding R82, 40_primitives R108, 95_test_vectors V2 to V17), and one
witness per statement that has hypotheses. -/

namespace Sys2Proof.Tests

open Sys2Proof Sys2Proof.Machine

/-! ### Helpers -/

/-- Whether an outcome is a next state with the given property. -/
def nextWith (o : Host.Outcome State Fault Refusal) (p : State → Bool) : Bool :=
  match o with
  | .next t => p t
  | .fault _ => false
  | .refused _ => false

/-- `V0` of 95_test_vectors V4. -/
def v0 : Bytes 55 := beBytes 55
  0xe54b4304f08343c0a7013de667b1d2951f64640745b5f306f4cedd954bf6ac6d2be84d8569450baf45930e44f43dfed0db924d0da8d680

/-- `C0` of 95_test_vectors V4. -/
def c0 : Bytes 55 := beBytes 55
  0xa303faf2d62a27ca635a04aa6053e9f11e50e0388b6db81e6529e0b532fa49cba5d7d534a6f25028676088725e5855dbd576b1feb7bf26

/-- `V1` of 95_test_vectors V6, as a number. -/
def v1 : Nat :=
  0x884f3df7c6ad6b8b0a5b4290c805bc863db5443fd123ab6b95fc7aec00afa7566e8d1d38c40e66002cd46aabc86eab5376e3afb647b324

/-- The key of 95_test_vectors V9. -/
def key9 : Bytes 16 := beBytes 16 0x1b1a1918131211100b0a090803020100

/-- The plaintext of 95_test_vectors V14. -/
def plain14 : Bytes 8 := beBytes 8 0x656b696c20646e75

/-- A block after `SEED zeros(48)` (V4), with no key. -/
def seeded0 : State := { State.reset with v := v0, c := c0, gc := 0, seeded := true }

/-- A block with the key of V9 and no seed. -/
def keyed9 : State := { State.reset with ks := keySchedule Config.zSeqDefault key9, keyed := true }

/-- A block with the generator of V4 and the key of V9. -/
def ready : State := { seeded0 with ks := keySchedule Config.zSeqDefault key9, keyed := true }

/-! ### Well-formedness: one ill-formed raw command per check, each refused -/

theorem test_wf_refuses_illegal_opcode : (RawCommand.mk 0x05 []).legalOpcode = false := by decide
theorem test_wf_refuses_short_operand : (RawCommand.mk 0x02 [0, 0, 0]).rightSize = false := by decide
theorem test_wf_refuses_long_operand : (RawCommand.mk 0x04 (zeros 9)).wf = false := by decide
theorem test_wf_accepts_fill : (RawCommand.mk 0x02 [0, 0, 0, 4]).wf = true := by decide

/-! ### Decoding: words written out from 30_encoding R72 to R76 -/

theorem test_decode_seed :
    decode (0x01 :: be 48 0x0102 ++ [0x07]) = .command (.seed (beBytes 48 0x0102)) [0x07] := by decide
theorem test_decode_fill_big_endian : decode [0x02, 0x00, 0x00, 0x01, 0x02] = .command (.fill 258) [] := by decide
theorem test_decode_setKey :
    decode [0x03, 0x1b, 0x1a, 0x19, 0x18, 0x13, 0x12, 0x11, 0x10, 0x0b, 0x0a, 0x09, 0x08, 0x03, 0x02, 0x01, 0x00] =
      .command (.setKey key9) [] := by decide
theorem test_decode_encrypt :
    decode [0x04, 0x65, 0x6b, 0x69, 0x6c, 0x20, 0x64, 0x6e, 0x75] = .command (.encrypt plain14) [] := by decide
/-- The framing of V17: `FILL 1`, illegal `05`, `FILL 2`, then an incomplete `ENCRYPT`. -/
theorem test_framing_of_v17 :
    decode [0x02, 0, 0, 0, 1, 0x05, 0x02, 0, 0, 0, 2, 0x04, 0, 0, 0] =
      .command (.fill 1) [0x05, 0x02, 0, 0, 0, 2, 0x04, 0, 0, 0] ∧
    decode [0x05, 0x02, 0, 0, 0, 2, 0x04, 0, 0, 0] = .illegal 0x05 [0x02, 0, 0, 0, 2, 0x04, 0, 0, 0] ∧
    decode [0x04, 0, 0, 0] = .incomplete := by decide

/-! ### Primitives -/

/-- The standard's second vector (R108). -/
theorem test_sha256_abc :
    intOf (sha256 [0x61, 0x62, 0x63]).toList = 0xba7816bf8f01cfea414140de5dae2223b00361a396177a9cb410ff61f20015ad := by
  decide +kernel

/-- V2: carry beyond `b`, carry out discarded, a chain through two bytes, an empty `b`. -/
theorem test_addAccumulate_v2 :
    addAccumulate #v[0x00, 0xff] #v[0x01] = (#v[0x01, 0x00] : Bytes 2) ∧
    addAccumulate #v[0xff, 0xff] #v[0x01] = (#v[0x00, 0x00] : Bytes 2) ∧
    addAccumulate #v[0x01, 0x02, 0xff, 0xfe] #v[0x01, 0x02] = (#v[0x01, 0x03, 0x01, 0x00] : Bytes 4) ∧
    addAccumulate #v[0, 0, 0] #v[] = (#v[0, 0, 0] : Bytes 3) := by decide

/-- V5 at the truncation boundary: 33 bytes take one byte of the second hash, which is that of `V0 + 1`. -/
theorem test_hashGen_33 :
    intOf (hashGen v0 33).toList = 0x362ab4410e23ded3a0cb840bf587b28b09f42a47b4acc6d41dd2fc9aaa622b85e5 := by decide +kernel

/-- V11, row 5. -/
theorem test_maskedAnd_v11 : maskedAnd 0x12345678 0x9abcdef0 0x0f0f0f0f 0xdeadbeef 0xcafebabe = 0x4a7e3a3e := by decide

/-- The first round of V14. -/
theorem test_round_v14 :
    cipherRound ⟨0x5341dd2d, 0x362ab441, 0x2e47b0a6, 0x0e23ded3⟩ 0xa0cb840b 0x03020100 =
      ⟨0x8ac90158, 0x76428bdc, 0x5341dd2d, 0x362ab441⟩ := by decide

/-! ### The commands -/

/-- V4: `V`, `C` and `GC` after `SEED zeros(48)`. -/
theorem test_seed_v4 :
    nextWith (exec (.seed (beBytes 48 0)) State.reset)
      (fun t => decide (t.v = v0 ∧ t.c = c0 ∧ t.gc = 0 ∧ t.status = 0x01 ∧ t.resp = [0x00])) = true := by decide +kernel

/-- V6: the first `FILL 4` after `SEED zeros(48)`. -/
theorem test_fill_v6 :
    nextWith (exec (.fill 4) seeded0)
      (fun t => decide (t.resp = [0x00, 0x36, 0x2a, 0xb4, 0x41] ∧ intOf t.v.toList = v1 ∧ t.gc = 1)) = true := by
  decide +kernel

/-- V16: `fill 0` before any seed is `NOT_SEEDED`. -/
theorem test_fill_unseeded_v16 :
    nextWith (exec (.fill 0) State.reset) (fun t => decide (t.resp = [0x02] ∧ t.status = 0x08)) = true := by decide

/-- V9: the ends of the schedule, and its first expanded word. -/
theorem test_setKey_v9 :
    nextWith (exec (.setKey key9) State.reset)
      (fun t => decide (t.ks[0] = 0x03020100 ∧ t.ks[4] = 0x70a011c3 ∧ t.ks[43] = 0x15df4696 ∧ t.status = 0x02)) = true := by
  decide +kernel

/-- V14: the published vector, through the masked data path. -/
theorem test_encrypt_v14 :
    nextWith (exec (.encrypt plain14) ready) (fun t => decide (t.resp = 0x00 :: be 8 0x44c8fc20b9dfa07a ∧ t.gc = 1)) = true := by
  decide +kernel

/-- V16: `encrypt` with neither key nor seed reports `KEY_NOT_SET` only. -/
theorem test_encrypt_unready_v16 :
    nextWith (exec (.encrypt (beBytes 8 0)) State.reset) (fun t => decide (t.resp = [0x03] ∧ t.status = 0x10)) = true := by
  decide

/-- V16: `.byte ff` from reset; and the first step after placing a word of the table. -/
theorem test_step_illegal_v16 :
    nextWith (step { State.reset with cmd := [0xff] }) (fun t => decide (t.resp = [0x01] ∧ t.status = 0x04 ∧ t.cmd = [])) = true ∧
    nextWith (step (State.reset.withFetchWord 8 0x02)) (fun t => decide (t.resp = [0x02] ∧ t.cmd = [])) = true := by decide

/-! ### Witnesses: a concrete case meets the hypotheses of each statement that has any -/

theorem witness_DecodedBytesAreTheEncoding : decode [0x02, 0, 0, 0, 4, 9] = .command (.fill 4) [9] := by decide
theorem witness_IllegalExactlyOutsideTheOpcodeMap :
    decode [0x00] = .illegal 0x00 [] ∧ decode [0x05] = .illegal 0x05 [] ∧ decode [0xff, 1] = .illegal 0xff [1] := by decide
theorem witness_DecodeIgnoresBytesBehindTheCommand :
    decode (0x04 :: zeros 8) = .command (.encrypt (beBytes 8 0)) [] ∧ decode [0x05] = .illegal 0x05 [] := by decide
theorem witness_StepExecutesTheDecodedCommand :
    decode { State.reset with cmd := [0x02, 0, 0, 0, 4, 9] }.cmd = .command (.fill 4) [9] := by decide
theorem witness_IllegalOpcodeIsReported :
    { State.reset with cmd := [0x05, 0x02] }.cmd = 0x05 :: [0x02] ∧ (0x05 : Byte) ≠ 0x01 ∧ (0x05 : Byte) ≠ 0x02 ∧
      (0x05 : Byte) ≠ 0x03 ∧ (0x05 : Byte) ≠ 0x04 := by decide
theorem witness_IncompleteCommandWaits :
    decode { State.reset with cmd := [0x02, 0, 0, 0] }.cmd = .incomplete ∧ State.reset.host = [] := by decide
theorem witness_HostBytesAreAppended :
    decode { State.reset with cmd := [0x02], host := [.send [0]] }.cmd = .incomplete ∧
      { State.reset with cmd := [0x02], host := [.send [0]] }.host = .send [0] :: [] := by decide
theorem witness_StatusSampleShowsTheFlagsAndChangesNothing :
    decode { ready with host := [.sample] }.cmd = .incomplete ∧ { ready with host := [.sample] }.host = .sample :: [] := by
  decide
theorem witness_ResetEventClearsTheBlock :
    decode { ready with cmd := [0x04, 1], host := [.reset] }.cmd = .incomplete ∧
      { ready with cmd := [0x04, 1], host := [.reset] }.host = .reset :: [] := by decide
theorem witness_ResetDuringACommandCutsTheResponse :
    decode { ready with cmd := [0x02, 0], host := [.resetDuring [0, 0, 4] 2] }.cmd = .incomplete ∧
      decode ([0x02, 0] ++ [0, 0, 4]) = .command (.fill 4) [] := by decide
theorem witness_CommandSentInTwoPiecesExecutesOnce :
    encode (.fill 4) = [0x02, 0x00] ++ [0x00, 0x00, 0x04] ∧ ([0x00, 0x00, 0x04] : List Byte) ≠ [] ∧
      { ready with host := [.send [0x02, 0x00], .send [0x00, 0x00, 0x04]] }.cmd = [] := by decide
theorem witness_CommandsExecuteInStreamOrder :
    { ready with cmd := [0x02, 0, 0, 0, 0, 0x02, 0, 0, 0, 1, 0x05] }.cmd = streamOf [.fill 0, .fill 1] ++ [0x05] := by decide
theorem witness_SampleSeesExactlyTheEarlierCommands :
    { ready with cmd := [0x02, 0, 0, 0, 0], host := [.sample] }.cmd = streamOf [.fill 0] ∧
      { ready with cmd := [0x02, 0, 0, 0, 0], host := [.sample] }.host = .sample :: [] := by decide
theorem witness_EmittedBytesStayEmitted : ∃ t, step { ready with host := [.reset] } = .next t := ⟨_, rfl⟩
theorem witness_Sha256BlocksAreCompressedInOrder :
    (zeros 55).length ≤ 55 ∧ 56 ≤ (zeros 56).length ∧ (zeros 119).length ≤ 119 := by decide
theorem witness_Sha256MessageScheduleRecurrence : (16 : Nat) ≤ 16 ∧ 63 < 64 ∧ (15 : Nat) < 16 := by decide
theorem witness_AddAccumulateIsModularAddition : (8 : Nat) ≤ 55 ∧ (55 : Nat) ≤ 55 ∧ (0 : Nat) ≤ 0 := by decide
theorem witness_HashDfConcatenatesCountedHashes : (0 : Nat) ≤ 8160 ∧ 55 ≤ 8160 ∧ 8160 ≤ 8160 := by decide
theorem witness_HashGenOutputsArePrefixes : (32 : Nat) ≤ 33 := by decide
theorem witness_FillEmitsAndUpdates : ready.seeded = true := by decide
theorem witness_NotSeededIsReported : State.reset.seeded = false ∧ keyed9.keyed = true ∧ keyed9.seeded = false := by decide
theorem witness_StateAfterAGenerationIgnoresItsLength :
    ready.seeded = true ∧ ready.keyed = true ∧ (0 : BitVec 32).toNat ≤ (0xffffffff : BitVec 32).toNat := by decide
theorem witness_GeneratorSequenceIgnoresLengths :
    (∃ t, execAll (List.map .fill [0, 1]) seeded0 = .next t) ∧ (∃ u, execAll (List.map .fill [2, 0]) seeded0 = .next u) :=
  ⟨⟨_, rfl⟩, ⟨_, rfl⟩⟩
theorem witness_ResponsesAfterSeedDependOnSeedAndCommands :
    ready.keyed = { ready with gc := 7, seeded := false }.keyed ∧ ready.ks = { ready with gc := 7, seeded := false }.ks ∧
      ready.zSeq = { ready with gc := 7, seeded := false }.zSeq := ⟨rfl, rfl, rfl⟩
theorem witness_GcCountsGenerations :
    ready.seeded = true ∧ ready.keyed = true ∧ [Instr.fill 0, .setKey key9, .encrypt plain14].any isSeed = false := by decide
theorem witness_KeyScheduleReadsZSeqBits61To22 :
    ∀ k : Fin 62, 22 ≤ k.val → (0xC000000000000000 : BitVec 64).getLsbD k = (0x00000000003fffff : BitVec 64).getLsbD k := by
  decide
/-- The invariant holds of a block with a key, checked on its 40 expanded words. -/
theorem witness_EveryStepKeepsTheKeyScheduleExpanded : KeyScheduleInv keyed9 ∧ ∃ t, step keyed9 = .next t := by
  refine ⟨fun _ i h4 h44 => ?_, ⟨_, rfl⟩⟩
  interval_cases i <;> decide +kernel +revert
theorem witness_EncryptFollowsTheMaskedRounds : ready.keyed = true ∧ ready.seeded = true := by decide
theorem witness_EncryptIsThePlainCipher : ready.keyed = true ∧ ready.seeded = true := by decide
theorem witness_KeyNotSetIsReported : State.reset.keyed = false ∧ seeded0.keyed = false ∧ seeded0.seeded = true := by decide
theorem witness_CipherResponsesIgnoreTheGenerator :
    AgreeButGenerator ready { ready with gc := 7, c := v0 } ∧ [Instr.setKey key9, .encrypt plain14].all isCipher = true :=
  ⟨rfl, rfl⟩
theorem witness_PublishedVectorWithDefaultZSeq : seeded0.zSeq = 0x36EB19781229CD0F ∧ seeded0.seeded = true := by decide
theorem witness_CommandsWriteOnlyTheirState :
    (∃ t, exec (.setKey key9) ready = .next t) ∧ (∃ t, exec (.seed (beBytes 48 0)) ready = .next t) ∧
      (∀ e, Instr.setKey key9 ≠ .seed e) ∧ (∀ k, Instr.seed (beBytes 48 0) ≠ .setKey k) :=
  ⟨⟨_, rfl⟩, ⟨_, rfl⟩, by simp, by simp⟩
theorem witness_EveryCommandEmitsOneResponse :
    nextWith (exec (.fill 0) seeded0) (fun t => decide (t.resp = [0x00])) = true ∧
    nextWith (exec (.fill 0) keyed9) (fun t => decide (t.resp = [0x02])) = true := by decide +kernel
theorem witness_StatusCodesOfEachCommand :
    (∃ t, exec (.fill 1) ready = .next t) ∧ (∃ t, exec (.encrypt plain14) keyed9 = .next t) ∧
      { ready with cmd := [0x00] }.cmd = 0x00 :: [] := ⟨⟨_, rfl⟩, ⟨_, rfl⟩, rfl⟩
theorem witness_FaultingCommandChangesOnlyItsStickyBit :
    ∃ t, exec (.encrypt plain14) keyed9 = .next t ∧ t.resp = keyed9.resp ++ 0x02 :: [] ∧ (0x02 : Byte) ≠ 0x00 :=
  ⟨_, rfl, rfl, by decide⟩
theorem witness_OnlyResetClearsFlags :
    ∃ t, step { ready with host := [.reset] } = .next t ∧ t.seeded = false ∧ { ready with host := [.reset] }.seeded = true :=
  ⟨_, rfl, rfl, rfl⟩
theorem witness_UnwrittenStateIsNeverRead : AgreeWhereWritten State.reset { State.reset with v := v0, gc := 5 } :=
  ⟨rfl, by decide, by decide⟩
theorem witness_InitialisedBlockNeverFaults : ready.seeded = true ∧ ready.keyed = true := by decide

end Sys2Proof.Tests
end

/-! PROOFS. The statements of 00_scope: byte strings and integers (R17), and the bits of `Z_SEQ` the key schedule reads (R12). -/

namespace Sys2Proof.Machine

/-! ### Byte strings and integers -/

/-- `int(BE_n(v))` for every `v`: what `n` bytes hold of it (00_scope R17, log 21). -/
theorem intOf_be (n v : Nat) : intOf (be n v) = v % 256 ^ n := by
  induction n with
  | zero => simp [be, intOf, Nat.mod_one]
  | succ n ih =>
    simp only [be, intOf, BitVec.toNat_ofNat, be_length_eq, ih, Nat.mod_pow_succ, Nat.reducePow]
    ring

/-- Byte strings of one length with the same integer are the same string (00_scope R17). -/
theorem eq_of_intOf_eq {s t : List Byte} (hlen : s.length = t.length) (h : intOf s = intOf t) : s = t := by
  induction s generalizing t with
  | nil => exact (List.length_eq_zero_iff.mp hlen.symm).symm
  | cons b s ih =>
    cases t with
    | nil => cases hlen
    | cons c t =>
      have hlen' : s.length = t.length := Nat.succ.inj hlen
      have hs : intOf s < 256 ^ t.length := hlen' ▸ intOf_lt s
      simp only [intOf, hlen'] at h
      have hmod := congrArg (· % 256 ^ t.length) h
      have htail : intOf s = intOf t := by
        simpa only [Nat.mul_add_mod', Nat.mod_eq_of_lt hs, Nat.mod_eq_of_lt (intOf_lt t)] using hmod
      have hhead : b.toNat = c.toNat :=
        Nat.eq_of_mul_eq_mul_right (Nat.pow_pos (by decide)) (Nat.add_right_cancel (htail ▸ h))
      rw [BitVec.eq_of_toNat_eq hhead, ih hlen' htail]

/-- `BE_len(s)(int(s))` is `s` (00_scope R17). -/
theorem be_intOf (s : List Byte) : be s.length (intOf s) = s :=
  eq_of_intOf_eq (be_length _ _) ((intOf_be _ _).trans (Nat.mod_eq_of_lt (intOf_lt s)))

/-- Settles O8, by induction on the length, and by injectivity of `int` on strings of one length. -/
theorem bigEndianBytesAndIntegersAreInverse : Obligations.BigEndianBytesAndIntegersAreInverse :=
  ⟨fun n v => by rw [intOf_be, Nat.pow_mul], be_intOf⟩

/-! ### The bits of `Z_SEQ` -/

/-- One step of the key expansion reads one bit of the parameter (42_cipher_commands R162). -/
theorem expandWord_congr {z₁ z₂ : BitVec 64} {i : Nat} (h : z₁.getLsbD (61 - (i - 4)) = z₂.getLsbD (61 - (i - 4)))
    (k4 k3 k1 : Word) : expandWord z₁ i k4 k3 k1 = expandWord z₂ i k4 k3 k1 := by
  simp only [expandWord, h]

/-- `n` steps of the key expansion from index `i` read the bits of the indices `i` to `i + n - 1` (42_cipher_commands R162). -/
theorem expandFrom_congr {z₁ z₂ : BitVec 64} (n i : Nat)
    (h : ∀ j, i ≤ j → j < i + n → z₁.getLsbD (61 - (j - 4)) = z₂.getLsbD (61 - (j - 4))) (k4 k3 k2 k1 : Word) :
    expandFrom z₁ n i k4 k3 k2 k1 = expandFrom z₂ n i k4 k3 k2 k1 := by
  induction n generalizing i k4 k3 k2 k1 with
  | zero => rfl
  | succ n ih =>
    have hword := expandWord_congr (h i (by omega) (by omega)) k4 k3 k1
    have hrest := ih (i + 1) fun j hi hj => h j (by omega) (by omega)
    simp only [expandFrom, hword, hrest]

/-- Settles O39: the indices 4 to 43 of the expansion read the bits 61 to 22. -/
theorem keyScheduleReadsZSeqBits61To22 : Obligations.KeyScheduleReadsZSeqBits61To22 := by
  intro z₁ z₂ key h
  have hexpand := expandFrom_congr 40 4 fun j h4 h44 => h (61 - (j - 4)) (by omega) (by omega)
  simp only [keySchedule, expandSchedule, hexpand]

end Sys2Proof.Machine

/-! PROOFS. The statements of 10_state: what a step is (R34), reset (R38), the flags (R27, R28), the generation counter (R23),
the key schedule (R26), and that nothing unwritten is read (R38). -/

namespace Sys2Proof.Machine

/-! ### What a step and a host move are -/

/-- A step runs what stands at the head of the command stream, or lets the host move while nothing whole stands there
(10_state R34, 20_memory R62). -/
theorem step_eq (s : State) :
    step s = if decode s.cmd = .incomplete then hostMove s else runDecoded (decode s.cmd) s := by
  cases hd : decode s.cmd <;> simp [step, hd]

theorem hostMove_of_nil {s : State} (h : s.host = []) : hostMove s = .next s := by
  rw [hostMove, h]

theorem hostMove_of_send {s : State} {bytes : List Byte} {moves : List HostMove} (h : s.host = .send bytes :: moves) :
    hostMove s = .next (receive bytes { s with host := moves }) := by
  rw [hostMove, h]

theorem hostMove_of_sample {s : State} {moves : List HostMove} (h : s.host = .sample :: moves) :
    hostMove s = .next (sampleStatus { s with host := moves }) := by
  rw [hostMove, h]

theorem hostMove_of_reset {s : State} {moves : List HostMove} (h : s.host = .reset :: moves) :
    hostMove s = .next (resetBlock { s with host := moves }) := by
  rw [hostMove, h]

/-- A reset during a command cuts the state which that command would have left (70_reset_and_hazards R221). -/
theorem hostMove_of_resetDuring {s after : State} {bytes : List Byte} {emitted : Nat} {moves : List HostMove}
    (h : s.host = .resetDuring bytes emitted :: moves)
    (hafter : runDecoded (decode (s.cmd ++ bytes)) (receive bytes { s with host := moves }) = .next after) :
    hostMove s = .next (cutByReset emitted (receive bytes { s with host := moves }) after) := by
  rw [hostMove, h]
  simp only [receive_cmd, hafter]

/-- Every command answers a next state (60_exceptions R190, R193). -/
theorem exec_answers (i : Instr) (s : State) : ∃ t, exec i s = .next t := by
  obtain ⟨_, _, _, -, h⟩ | ⟨_, -, h⟩ | ⟨-, -, h⟩ | ⟨_, -, -, h⟩ | ⟨-, -, _, h⟩ := exec_cases i s <;> exact ⟨_, h⟩

/-- Whatever stands at the head of the stream answers a next state (60_exceptions R190, R195; 20_memory R62). -/
theorem runDecoded_answers (d : Decoded) (s : State) : ∃ t, runDecoded d s = .next t := by
  cases d with
  | command i rest => exact exec_answers i _
  | illegal op rest => exact ⟨_, rfl⟩
  | incomplete => exact ⟨_, rfl⟩

/-- Settles O9: the step of a stream whose head is a whole command. -/
theorem stepExecutesTheDecodedCommand : Obligations.StepExecutesTheDecodedCommand := by
  intro s i rest h
  simp only [step_eq, h, reduceCtorEq, if_false]
  rfl

/-! ### Reset -/

/-- Settles O14: the flags of the state after reset, and `STATUS` read from them. -/
theorem resetValues : Obligations.ResetValues :=
  have hstatus : State.reset.status = 0x00 := rfl
  ⟨rfl, rfl, hstatus, by rw [NoFaultRecorded, hstatus]; decide⟩

/-- A block without a key keeps the invariant of the key schedule whatever `KS` holds (10_state R26). -/
theorem keyScheduleInv_of_not_keyed {s : State} (h : s.keyed = false) : KeyScheduleInv s := by
  simp [KeyScheduleInv, h]

/-- Settles O41: there is no key at reset. -/
theorem keyScheduleInvariantHoldsAtReset : Obligations.KeyScheduleInvariantHoldsAtReset :=
  keyScheduleInv_of_not_keyed rfl

/-! ### The key schedule -/

/-- Every word of the expansion is made of the words one, three and four places before it, the four words it starts from
included (42_cipher_commands R162). -/
theorem expandFrom_getElem (z : BitVec 64) (n i : Nat) (k4 k3 k2 k1 : Word) (j : Nat)
    (h : j + 4 < (k4 :: k3 :: k2 :: k1 :: expandFrom z n i k4 k3 k2 k1).length) :
    let ks := k4 :: k3 :: k2 :: k1 :: expandFrom z n i k4 k3 k2 k1
    ks[j + 4] = expandWord z (i + j) ks[j] ks[j + 1] ks[j + 3] := by
  induction n generalizing i k4 k3 k2 k1 j with
  | zero => simp [expandFrom] at h
  | succ n ih =>
    cases j with
    | zero => rfl
    | succ j =>
      have hword := ih (i + 1) k3 k2 k1 (expandWord z i k4 k3 k1) j (by simpa [expandFrom] using h)
      rw [show i + (j + 1) = i + 1 + j by omega]
      exact hword

/-- The round constant of the expansion is the parameter's bit as a word (42_cipher_commands R162). -/
theorem setWidth_ofBool_eq_ite (b : Bool) :
    (BitVec.ofBool b).setWidth 32 = if b then (0x00000001 : Word) else 0x00000000 := by
  cases b <;> rfl

/-- The words of a key schedule from index 4 on (42_cipher_commands R162). -/
theorem keySchedule_getElem (z : BitVec 64) (key : Bytes 16) (j : Nat) (h : j + 4 < 44) :
    (keySchedule z key)[j + 4] = expandWord z (4 + j) (keySchedule z key)[j] (keySchedule z key)[j + 1]
      (keySchedule z key)[j + 3] :=
  expandFrom_getElem z 40 4 _ _ _ _ j (by simpa [expandFrom_length] using h)

/-- `SET_KEY` loads a schedule that follows the expansion rule (42_cipher_commands R162). -/
theorem scheduleExpanded_keySchedule (z : BitVec 64) (key : Bytes 16) : ScheduleExpanded z (keySchedule z key) := by
  intro i h4 h44
  obtain ⟨j, rfl⟩ := Nat.exists_eq_add_of_le' h4
  rw [keySchedule_getElem z key j h44, expandWord, setWidth_ofBool_eq_ite, Nat.add_comm 4 j]
  rfl

/-- A command keeps the key schedule expanded: `SET_KEY` loads an expanded one, and no other command writes `KEYED`, `KS` or
the parameter (10_state R26, R37). -/
theorem exec_keeps_keyScheduleInv {i : Instr} {s t : State} (hinv : KeyScheduleInv s) (h : exec i s = .next t) :
    KeyScheduleInv t := by
  obtain ⟨_, _, _, -, he⟩ | ⟨key, -, he⟩ | ⟨-, -, he⟩ | ⟨_, -, -, he⟩ | ⟨-, -, _, he⟩ := exec_cases i s
  all_goals cases he.symm.trans h
  case inr.inl => exact fun _ => scheduleExpanded_keySchedule s.zSeq key
  all_goals exact hinv

theorem runDecoded_keeps_keyScheduleInv {d : Decoded} {s t : State} (hinv : KeyScheduleInv s)
    (h : runDecoded d s = .next t) : KeyScheduleInv t := by
  cases d with
  | command i rest => exact exec_keeps_keyScheduleInv (s := consumeTo rest s) hinv h
  | illegal op rest => cases h; exact hinv
  | incomplete => cases h; exact hinv

/-- A move of the host keeps the key schedule expanded: it leaves `KS` alone or, a reset, takes the key away. -/
theorem hostMove_keeps_keyScheduleInv {s t : State} (hinv : KeyScheduleInv s) (h : hostMove s = .next t) :
    KeyScheduleInv t := by
  cases hhost : s.host with
  | nil => rw [hostMove_of_nil hhost] at h; cases h; exact hinv
  | cons move moves =>
    cases move with
    | send bytes => rw [hostMove_of_send hhost] at h; cases h; exact hinv
    | sample => rw [hostMove_of_sample hhost] at h; cases h; exact hinv
    | reset => rw [hostMove_of_reset hhost] at h; cases h; exact keyScheduleInv_of_not_keyed rfl
    | resetDuring bytes emitted =>
      obtain ⟨after, hafter⟩ :=
        runDecoded_answers (decode (s.cmd ++ bytes)) (receive bytes { s with host := moves })
      rw [hostMove_of_resetDuring hhost hafter] at h
      cases h
      exact keyScheduleInv_of_not_keyed rfl

/-- Settles O40: commands, illegal bytes and host moves each keep it. -/
theorem everyStepKeepsTheKeyScheduleExpanded : Obligations.EveryStepKeepsTheKeyScheduleExpanded := by
  intro s t hinv h
  rw [step_eq] at h
  split at h
  · exact hostMove_keeps_keyScheduleInv hinv h
  · exact runDecoded_keeps_keyScheduleInv hinv h

/-! ### What reset leaves unspecified is not read -/

/-- The second of two agreeing states is the first with other values in what is unwritten (10_state R38). -/
theorem agreeWhereWritten_iff {s t : State} : AgreeWhereWritten s t ↔
    ∃ v c gc ks, t = { s with v := v, c := c, gc := gc, ks := ks } ∧
      (s.seeded = true → v = s.v ∧ c = s.c ∧ gc = s.gc) ∧ (s.keyed = true → ks = s.ks) := by
  constructor
  · rintro ⟨ht, hgen, hks⟩
    exact ⟨t.v, t.c, t.gc, t.ks, ht, hgen, hks⟩
  · rintro ⟨v, c, gc, ks, rfl, hgen, hks⟩
    exact ⟨rfl, hgen, hks⟩

theorem AgreeWhereWritten.refl (s : State) : AgreeWhereWritten s s := ⟨rfl, fun _ => ⟨rfl, rfl, rfl⟩, fun _ => rfl⟩

/-- Both outcomes are next states, and these agree where written. -/
def AgreeingAnswers (o₁ o₂ : Host.Outcome State Fault Refusal) : Prop :=
  ∃ s' t', o₁ = .next s' ∧ o₂ = .next t' ∧ AgreeWhereWritten s' t'

section
variable {s t : State} (h : AgreeWhereWritten s t)
include h

theorem AgreeWhereWritten.cmd_eq : t.cmd = s.cmd := by rw [h.1]

theorem AgreeWhereWritten.host_eq : t.host = s.host := by rw [h.1]

theorem AgreeWhereWritten.resp_eq : t.resp = s.resp := by rw [h.1]

theorem AgreeWhereWritten.seeded_eq : t.seeded = s.seeded := by rw [h.1]

theorem AgreeWhereWritten.keyed_eq : t.keyed = s.keyed := by rw [h.1]

theorem AgreeWhereWritten.v_eq (hs : s.seeded = true) : t.v = s.v := (h.2.1 hs).1

theorem AgreeWhereWritten.ks_eq (hk : s.keyed = true) : t.ks = s.ks := h.2.2 hk

theorem AgreeWhereWritten.withHost (moves : List HostMove) :
    AgreeWhereWritten { s with host := moves } { t with host := moves } := by
  obtain ⟨v, c, gc, ks, rfl, hgen, hks⟩ := agreeWhereWritten_iff.mp h
  exact ⟨rfl, hgen, hks⟩

theorem AgreeWhereWritten.receive (bytes : List Byte) :
    AgreeWhereWritten (Machine.receive bytes s) (Machine.receive bytes t) := by
  obtain ⟨v, c, gc, ks, rfl, hgen, hks⟩ := agreeWhereWritten_iff.mp h
  exact ⟨rfl, hgen, hks⟩

theorem AgreeWhereWritten.consumeTo (rest : List Byte) :
    AgreeWhereWritten (Machine.consumeTo rest s) (Machine.consumeTo rest t) := by
  obtain ⟨v, c, gc, ks, rfl, hgen, hks⟩ := agreeWhereWritten_iff.mp h
  exact ⟨rfl, hgen, hks⟩

theorem AgreeWhereWritten.sampleStatus : AgreeWhereWritten (Machine.sampleStatus s) (Machine.sampleStatus t) := by
  obtain ⟨v, c, gc, ks, rfl, hgen, hks⟩ := agreeWhereWritten_iff.mp h
  exact ⟨rfl, hgen, hks⟩

theorem AgreeWhereWritten.raise (f : Fault) : AgreeWhereWritten (Machine.raise f s) (Machine.raise f t) := by
  obtain ⟨v, c, gc, ks, rfl, hgen, hks⟩ := agreeWhereWritten_iff.mp h
  simp only [raise_eq]
  exact ⟨rfl, hgen, hks⟩

/-- Reset gives both states the same unspecified values (10_state R38; log 2). -/
theorem AgreeWhereWritten.resetBlock : AgreeWhereWritten (Machine.resetBlock s) (Machine.resetBlock t) := by
  obtain ⟨v, c, gc, ks, rfl, -, -⟩ := agreeWhereWritten_iff.mp h
  exact .refl _

theorem AgreeWhereWritten.complete (payload : List Byte) :
    AgreeWhereWritten (Machine.complete payload s) (Machine.complete payload t) := by
  obtain ⟨v, c, gc, ks, rfl, hgen, hks⟩ := agreeWhereWritten_iff.mp h
  exact ⟨rfl, hgen, hks⟩

/-- On seeded blocks the state update starts from the same `V`, `C` and `GC`. -/
theorem AgreeWhereWritten.stateUpdate (hs : s.seeded = true) :
    AgreeWhereWritten (Machine.stateUpdate s) (Machine.stateUpdate t) := by
  obtain ⟨v, c, gc, ks, rfl, hgen, hks⟩ := agreeWhereWritten_iff.mp h
  obtain ⟨rfl, rfl, rfl⟩ := hgen hs
  exact ⟨rfl, fun _ => ⟨rfl, rfl, rfl⟩, hks⟩

theorem AgreeWhereWritten.execSeed (material : Bytes 48) :
    AgreeingAnswers (Machine.execSeed material s) (Machine.execSeed material t) := by
  obtain ⟨v, c, gc, ks, rfl, -, hks⟩ := agreeWhereWritten_iff.mp h
  exact ⟨_, _, rfl, rfl, rfl, fun _ => ⟨rfl, rfl, rfl⟩, hks⟩

theorem AgreeWhereWritten.execSetKey (key : Bytes 16) :
    AgreeingAnswers (Machine.execSetKey key s) (Machine.execSetKey key t) := by
  obtain ⟨v, c, gc, ks, rfl, hgen, -⟩ := agreeWhereWritten_iff.mp h
  exact ⟨_, _, rfl, rfl, rfl, hgen, fun _ => rfl⟩

/-- `FILL` reads the generator only when `SEEDED` = 1. -/
theorem AgreeWhereWritten.execFill (length : BitVec 32) :
    AgreeingAnswers (Machine.execFill length s) (Machine.execFill length t) := by
  cases hs : s.seeded with
  | false =>
    have ht := h.seeded_eq.trans hs
    exact ⟨_, _, execFill_of_not_seeded length hs, execFill_of_not_seeded length ht, h.raise _⟩
  | true =>
    have ht := h.seeded_eq.trans hs
    refine ⟨_, _, execFill_of_seeded length hs, execFill_of_seeded length ht, ?_⟩
    rw [h.v_eq hs]
    exact (h.stateUpdate hs).complete _

/-- `ENCRYPT` reads the generator and `KS` only when `SEEDED` and `KEYED` are both 1. -/
theorem AgreeWhereWritten.execEncrypt (plaintext : Bytes 8) :
    AgreeingAnswers (Machine.execEncrypt plaintext s) (Machine.execEncrypt plaintext t) := by
  cases hk : s.keyed with
  | false =>
    have hk' := h.keyed_eq.trans hk
    exact ⟨_, _, execEncrypt_of_not_keyed plaintext hk, execEncrypt_of_not_keyed plaintext hk', h.raise _⟩
  | true =>
    have hk' := h.keyed_eq.trans hk
    cases hs : s.seeded with
    | false =>
      have hs' := h.seeded_eq.trans hs
      exact ⟨_, _, execEncrypt_of_not_seeded plaintext hk hs, execEncrypt_of_not_seeded plaintext hk' hs', h.raise _⟩
    | true =>
      have hs' := h.seeded_eq.trans hs
      refine ⟨_, _, execEncrypt_of_ready plaintext hk hs, execEncrypt_of_ready plaintext hk' hs', ?_⟩
      rw [h.v_eq hs, h.ks_eq hk]
      exact (h.stateUpdate hs).complete _

theorem AgreeWhereWritten.exec (i : Instr) : AgreeingAnswers (Machine.exec i s) (Machine.exec i t) := by
  cases i with
  | seed material => exact h.execSeed material
  | fill length => exact h.execFill length
  | setKey key => exact h.execSetKey key
  | encrypt plaintext => exact h.execEncrypt plaintext

theorem AgreeWhereWritten.runDecoded (d : Decoded) :
    AgreeingAnswers (Machine.runDecoded d s) (Machine.runDecoded d t) := by
  cases d with
  | command i rest => exact (h.consumeTo rest).exec i
  | illegal op rest => exact ⟨_, _, rfl, rfl, (h.consumeTo rest).raise _⟩
  | incomplete => exact ⟨_, _, rfl, rfl, h⟩

/-- A reset during a command keeps the same first bytes of a response from both states (70_reset_and_hazards R221). -/
theorem AgreeWhereWritten.cutByReset (emitted : Nat) {s' t' : State} (h' : AgreeWhereWritten s' t') :
    AgreeWhereWritten (Machine.cutByReset emitted s s') (Machine.cutByReset emitted t t') := by
  obtain ⟨v, c, gc, ks, rfl, -, -⟩ := agreeWhereWritten_iff.mp h'
  simp only [cutByReset_eq, h.resp_eq]
  exact .refl _

theorem AgreeWhereWritten.hostMove : AgreeingAnswers (Machine.hostMove s) (Machine.hostMove t) := by
  cases hs : s.host with
  | nil => exact ⟨_, _, hostMove_of_nil hs, hostMove_of_nil (h.host_eq.trans hs), h⟩
  | cons move moves =>
    have ht := h.host_eq.trans hs
    cases move with
    | send bytes => exact ⟨_, _, hostMove_of_send hs, hostMove_of_send ht, (h.withHost moves).receive bytes⟩
    | sample => exact ⟨_, _, hostMove_of_sample hs, hostMove_of_sample ht, (h.withHost moves).sampleStatus⟩
    | reset => exact ⟨_, _, hostMove_of_reset hs, hostMove_of_reset ht, (h.withHost moves).resetBlock⟩
    | resetDuring bytes emitted =>
      have hbefore := (h.withHost moves).receive bytes
      obtain ⟨s', t', hs', ht', hafter⟩ := hbefore.runDecoded (decode (s.cmd ++ bytes))
      rw [← h.cmd_eq] at ht'
      exact ⟨_, _, hostMove_of_resetDuring hs hs', hostMove_of_resetDuring ht ht', hbefore.cutByReset emitted hafter⟩

end

/-- Settles O55: agreeing states hold the same stream and host moves, so both take the same kind of step. -/
theorem unwrittenStateIsNeverRead : Obligations.UnwrittenStateIsNeverRead := by
  intro s t h
  change AgreeingAnswers (step s) (step t)
  rw [step_eq, step_eq, h.cmd_eq]
  split
  · exact h.hostMove
  · exact h.runDecoded _

/-! ### The flags and the generation counter over a list of commands -/

theorem execAll_cons {i : Instr} {s t : State} (h : exec i s = .next t) (is : List Instr) :
    execAll (i :: is) s = execAll is t := by
  rw [execAll, h]

/-- `SEED` sets `SEEDED`, `SET_KEY` sets `KEYED`, and no other command writes either (10_state R27, R28). -/
theorem exec_flags {i : Instr} {s t : State} (h : exec i s = .next t) :
    t.seeded = (s.seeded || isSeed i) ∧ t.keyed = (s.keyed || isSetKey i) := by
  obtain ⟨_, _, _, rfl, he⟩ | ⟨_, rfl, he⟩ | ⟨⟨_, rfl⟩ | ⟨_, rfl, -⟩, -, he⟩ | ⟨_, rfl, -, he⟩ |
    ⟨⟨_, rfl⟩ | ⟨_, rfl, -⟩, -, _, he⟩ := exec_cases i s
  all_goals
    cases he.symm.trans h
    simp [isSeed, isSetKey, raise]

/-- On a block with seed and key a command other than `SEED` adds 1 to `GC` exactly if it generates (10_state R23). -/
theorem exec_gc {i : Instr} {s t : State} (hs : s.seeded = true) (hk : s.keyed = true) (hi : isSeed i = false)
    (h : exec i s = .next t) : t.gc.toNat = (s.gc.toNat + if isGeneration i then 1 else 0) % 2 ^ 64 := by
  cases i with
  | seed material => cases hi
  | setKey key =>
    cases h
    exact (Nat.mod_eq_of_lt s.gc.isLt).symm
  | fill length =>
    cases (execFill_of_seeded length hs).symm.trans h
    exact BitVec.toNat_add _ _
  | encrypt plaintext =>
    cases (execEncrypt_of_ready plaintext hk hs).symm.trans h
    exact BitVec.toNat_add _ _

/-- Settles O57, by induction on the list of commands. -/
theorem flagsRecordSeedAndSetKey : Obligations.FlagsRecordSeedAndSetKey := by
  intro is
  induction is with
  | nil => exact fun s => ⟨s, rfl, by simp⟩
  | cons i is ih =>
    intro s
    obtain ⟨u, hu⟩ := exec_answers i s
    obtain ⟨hseeded, hkeyed⟩ := exec_flags hu
    obtain ⟨t, ht, hseeded', hkeyed'⟩ := ih u
    refine ⟨t, (execAll_cons hu is).trans ht, ?_, ?_⟩
    · rw [hseeded', hseeded, List.any_cons, Bool.or_assoc]
    · rw [hkeyed', hkeyed, List.any_cons, Bool.or_assoc]

/-- Settles O37, by induction on the list of commands; seed and key stay in place along it. -/
theorem gcCountsGenerations : Obligations.GcCountsGenerations := by
  intro is
  induction is with
  | nil => exact fun s _ _ _ => ⟨s, rfl, (Nat.mod_eq_of_lt s.gc.isLt).symm⟩
  | cons i is ih =>
    intro s hs hk hseed
    obtain ⟨hi, his⟩ : isSeed i = false ∧ is.any isSeed = false := by simpa using hseed
    obtain ⟨u, hu⟩ := exec_answers i s
    obtain ⟨hseeded, hkeyed⟩ := exec_flags hu
    have hgc := exec_gc hs hk hi hu
    obtain ⟨t, ht, hgc'⟩ := ih u (by simp [hseeded, hs]) (by simp [hkeyed, hk]) his
    refine ⟨t, (execAll_cons hu is).trans ht, ?_⟩
    rw [hgc', hgc, List.countP_cons]
    omega

end Sys2Proof.Machine

/-! PROOFS. The statements of 20_memory: the command stream is read a command at a time (R51, R62), and commands take effect in
its order (R58). -/

namespace Sys2Proof.Machine

/-! ### What the head of the command stream decodes to -/

/-- The opcode alone fixes how the bytes behind it are read: as an operand field of its length, or not at all (30_encoding R71,
R78). -/
theorem decode_cons_cases (op : Byte) :
    (∃ n make, operandLength op = some n ∧ ∀ s, decode (op :: s) = decodeOperand n make s) ∨
    (operandLength op = none ∧ ∀ s, decode (op :: s) = .illegal op s) := by
  obtain rfl | hseed := eq_or_ne op opSeed
  · exact .inl ⟨48, .seed, rfl, fun _ => rfl⟩
  obtain rfl | hfill := eq_or_ne op opFill
  · exact .inl ⟨4, fun operand => .fill (lengthOperand operand), rfl, fun _ => rfl⟩
  obtain rfl | hsetKey := eq_or_ne op opSetKey
  · exact .inl ⟨16, .setKey, rfl, fun _ => rfl⟩
  obtain rfl | hencrypt := eq_or_ne op opEncrypt
  · exact .inl ⟨8, .encrypt, rfl, fun _ => rfl⟩
  exact .inr ⟨by simp [operandLength, hseed, hfill, hsetKey, hencrypt],
    fun s => by simp [decode, hseed, hfill, hsetKey, hencrypt]⟩

theorem decodeOperand_ne_illegal {n : Nat} {make : Bytes n → Instr} {s rest : List Byte} {op : Byte} :
    decodeOperand n make s ≠ .illegal op rest := by
  unfold decodeOperand
  split <;> nofun

theorem decodeOperand_eq_incomplete {n : Nat} {make : Bytes n → Instr} {s : List Byte} :
    decodeOperand n make s = .incomplete ↔ s.length < n := by
  rw [← takeOperand_eq_none, decodeOperand]
  split <;> simp [*]

/-- A whole operand field is read the same whatever stands behind it (20_memory R51). -/
theorem decodeOperand_append {n : Nat} {make : Bytes n → Instr} {s rest : List Byte} {i : Instr}
    (h : decodeOperand n make s = .command i rest) (more : List Byte) :
    decodeOperand n make (s ++ more) = .command i (rest ++ more) := by
  obtain ⟨operand, rfl, rfl⟩ := decodeOperand_eq_command.mp h
  exact decodeOperand_eq_command.mpr ⟨operand, rfl, List.append_assoc _ _ _⟩

/-- Settles O5: the opcode says how the rest is read, and a whole operand field is read the same with more behind it. -/
theorem decodeIgnoresBytesBehindTheCommand : Obligations.DecodeIgnoresBytesBehindTheCommand := by
  constructor
  · intro s rest more i h
    cases s with
    | nil => cases h
    | cons op s =>
      obtain ⟨n, make, -, hop⟩ | ⟨-, hop⟩ := decode_cons_cases op
      · rw [hop] at h
        rw [List.cons_append, hop]
        exact decodeOperand_append h more
      · cases (hop s).symm.trans h
  · intro s rest more op' h
    cases s with
    | nil => cases h
    | cons op s =>
      obtain ⟨n, make, -, hop⟩ | ⟨-, hop⟩ := decode_cons_cases op
      · exact absurd ((hop s).symm.trans h) decodeOperand_ne_illegal
      · cases (hop s).symm.trans h
        exact hop (rest ++ more)

/-- Behind an opcode byte a command is incomplete while fewer bytes are there than the opcode fixes (20_memory R62). -/
theorem decode_cons_eq_incomplete {op : Byte} {s : List Byte} :
    decode (op :: s) = .incomplete ↔ ∃ n, operandLength op = some n ∧ s.length < n := by
  obtain ⟨n, make, hn, hop⟩ | ⟨hn, hop⟩ := decode_cons_cases op
  · simp [hn, hop, decodeOperand_eq_incomplete]
  · simp [hn, hop]

/-- The operand lengths of the opcode map (30_encoding R72). -/
theorem operandLength_eq_some {op : Byte} {n : Nat} : operandLength op = some n ↔
    (op = 0x01 ∧ n = 48) ∨ (op = 0x02 ∧ n = 4) ∨ (op = 0x03 ∧ n = 16) ∨ (op = 0x04 ∧ n = 8) := by
  unfold operandLength opSeed opFill opSetKey opEncrypt
  split_ifs <;> simp_all [eq_comm]

/-- Settles O4: the empty string by computation, and the four operand lengths behind an opcode byte. -/
theorem incompleteExactlyWhileBytesAreMissing : Obligations.IncompleteExactlyWhileBytesAreMissing := by
  intro s
  cases s with
  | nil => exact iff_of_true rfl (.inl rfl)
  | cons op t => simp [decode_cons_eq_incomplete, operandLength_eq_some, or_and_right, exists_or, and_assoc]

/-! ### Commands in stream order -/

/-- The length operand of `FILL` is read back from its four bytes (30_encoding R74). -/
theorem lengthOperand_be (length : BitVec 32) : lengthOperand (beBytes 4 length.toNat) = length := by
  have hfits : length.toNat < 256 ^ 4 := length.isLt
  rw [lengthOperand, beBytes_toList, intOf_be, Nat.mod_eq_of_lt hfits, BitVec.ofNat_toNat, BitVec.setWidth_eq]

/-- A command's own bytes decode to it and leave what follows them (30_encoding R71 to R76). -/
theorem decode_encode_append (i : Instr) (rest : List Byte) : decode (encode i ++ rest) = .command i rest := by
  cases i with
  | seed material => exact decodeOperand_eq_command.mpr ⟨material, rfl, rfl⟩
  | fill length =>
    exact decodeOperand_eq_command (make := fun operand => .fill (lengthOperand operand)).mpr
      ⟨beBytes 4 length.toNat, congrArg Instr.fill (lengthOperand_be length).symm, rfl⟩
  | setKey key => exact decodeOperand_eq_command.mpr ⟨key, rfl, rfl⟩
  | encrypt plaintext => exact decodeOperand_eq_command.mpr ⟨plaintext, rfl, rfl⟩

/-- A command leaves the bytes behind it on the command stream (20_memory R51). -/
theorem exec_cmd {i : Instr} {s t : State} (h : exec i s = .next t) : t.cmd = s.cmd := by
  obtain ⟨_, _, _, -, he⟩ | ⟨_, -, he⟩ | ⟨-, -, he⟩ | ⟨_, -, -, he⟩ | ⟨-, -, _, he⟩ := exec_cases i s
  all_goals
    cases he.symm.trans h
    rfl

/-- What a command does is the same whatever stands behind it on the command stream (20_memory R51). -/
theorem exec_consumeTo {i : Instr} {s t : State} (h : exec i s = .next t) (rest : List Byte) :
    exec i (consumeTo rest s) = .next (consumeTo rest t) := by
  cases i with
  | seed material => cases h; rfl
  | setKey key => cases h; rfl
  | fill length =>
    cases hs : s.seeded with
    | false =>
      cases (execFill_of_not_seeded length hs).symm.trans h
      exact execFill_of_not_seeded length hs
    | true =>
      cases (execFill_of_seeded length hs).symm.trans h
      exact execFill_of_seeded length hs
  | encrypt plaintext =>
    cases hk : s.keyed with
    | false =>
      cases (execEncrypt_of_not_keyed plaintext hk).symm.trans h
      exact execEncrypt_of_not_keyed plaintext hk
    | true =>
      cases hs : s.seeded with
      | false =>
        cases (execEncrypt_of_not_seeded plaintext hk hs).symm.trans h
        exact execEncrypt_of_not_seeded plaintext hk hs
      | true =>
        cases (execEncrypt_of_ready plaintext hk hs).symm.trans h
        exact execEncrypt_of_ready plaintext hk hs

/-- A run goes on from the state its first step answers. -/
theorem run_succ_of_step {s t : State} (h : step s = .next t) (k : Nat) :
    Host.Core.run Sys2Proof.core (k + 1) s = Host.Core.run Sys2Proof.core k t := by
  have hstep : Sys2Proof.core.step s = .next t := h
  simp only [Host.Core.run, hstep]

/-- Settles O19, by induction on the list of commands: the first step executes the first command, leaving the encodings of the
others at the head of the stream. -/
theorem commandsExecuteInStreamOrder : Obligations.CommandsExecuteInStreamOrder := by
  intro is rest
  induction is with
  | nil => rintro s rfl; rfl
  | cons i is ih =>
    intro s hcmd
    have hdecode : decode s.cmd = .command i (streamOf is ++ rest) := by
      rw [hcmd, streamOf, List.flatMap_cons, List.append_assoc]
      exact decode_encode_append i _
    obtain ⟨t, ht⟩ := exec_answers i (consumeTo (streamOf is ++ rest) s)
    have hstep : step s = .next t := (stepExecutesTheDecodedCommand s i _ hdecode).trans ht
    have hrun : Host.Core.run Sys2Proof.core is.length t = execAll is (consumeTo rest t) := ih t (exec_cmd ht)
    have hexec : execAll (i :: is) (consumeTo rest s) = execAll is (consumeTo rest t) :=
      execAll_cons (exec_consumeTo ht rest) is
    exact (run_succ_of_step hstep is.length).trans (hrun.trans hexec.symm)

end Sys2Proof.Machine

/-! PROOFS. The statements of 30_encoding: `decode` and `encode` are inverse (R71 to R76, R78), the bytes outside the opcode map
(R78), words of the opcode table (R72), and one response per command (R80). -/

namespace Sys2Proof.Machine

/-! ### Decoding and encoding -/

/-- Settles O1: a command's operand field is read back from its own bytes, `FILL`'s length through big-endian integers. -/
theorem encodedCommandDecodesToItself : Obligations.EncodedCommandDecodesToItself := decode_encode_append

/-- The length operand of `FILL` is written as the four bytes it was read from (30_encoding R74). -/
theorem be_lengthOperand (operand : Bytes 4) : be 4 (lengthOperand operand).toNat = operand.toList := by
  have hlen : operand.toList.length = 4 := operand.length_toList
  have hfits : intOf operand.toList < 2 ^ 32 := by simpa [hlen] using intOf_lt operand.toList
  have hback : be 4 (intOf operand.toList) = operand.toList := by simpa [hlen] using be_intOf operand.toList
  rw [lengthOperand, BitVec.toNat_ofNat, Nat.mod_eq_of_lt hfits, hback]

/-- Behind an opcode whose commands are spelled by their operand bytes, the bytes a command was read from are its encoding
(30_encoding R71). -/
theorem encode_of_decodeOperand {op : Byte} {n : Nat} {make : Bytes n → Instr} {s rest : List Byte} {i : Instr}
    (hmake : ∀ operand, encode (make operand) = op :: operand.toList) (h : decodeOperand n make s = .command i rest) :
    op :: s = encode i ++ rest := by
  obtain ⟨operand, rfl, rfl⟩ := decodeOperand_eq_command.mp h
  rw [hmake, List.cons_append]

/-- Settles O2: each opcode's operand bytes are the operand field of the command they make. -/
theorem decodedBytesAreTheEncoding : Obligations.DecodedBytesAreTheEncoding := by
  intro s rest i h
  cases s with
  | nil => cases h
  | cons op s =>
    simp only [decode] at h
    split_ifs at h with hseed hfill hsetKey hencrypt
    · exact encode_of_decodeOperand (fun _ => hseed ▸ rfl) h
    · exact encode_of_decodeOperand (fun operand => hfill ▸ congrArg (opFill :: ·) (be_lengthOperand operand)) h
    · exact encode_of_decodeOperand (fun _ => hsetKey ▸ rfl) h
    · exact encode_of_decodeOperand (fun _ => hencrypt ▸ rfl) h

/-! ### Illegal opcodes -/

/-- A byte without an operand length is an illegal command of one byte, and no other byte is (30_encoding R78). -/
theorem decode_cons_eq_illegal {op op' : Byte} {s rest : List Byte} :
    decode (op :: s) = .illegal op' rest ↔ operandLength op = none ∧ op = op' ∧ s = rest := by
  obtain ⟨n, make, hn, hop⟩ | ⟨hn, hop⟩ := decode_cons_cases op
  · simp [hn, hop, decodeOperand_ne_illegal]
  · simp [hn, hop]

/-- The bytes outside the opcode map (30_encoding R72, R78). -/
theorem operandLength_eq_none {op : Byte} :
    operandLength op = none ↔ op ≠ 0x01 ∧ op ≠ 0x02 ∧ op ≠ 0x03 ∧ op ≠ 0x04 := by
  simp [Option.eq_none_iff_forall_ne_some, operandLength_eq_some, forall_and]

/-- Settles O3: the illegal bytes are those without an operand length. -/
theorem illegalExactlyOutsideTheOpcodeMap : Obligations.IllegalExactlyOutsideTheOpcodeMap := by
  constructor
  · intro op s
    simp only [decode_cons_eq_illegal, operandLength_eq_none, and_true]
  · intro s rest op h
    cases s with
    | nil => cases h
    | cons op' s =>
      obtain ⟨-, rfl, rfl⟩ := decode_cons_eq_illegal.mp h
      rfl

/-! ### Words of the opcode table -/

/-- A table word that spells a command's encoding decodes to that command (log 17). -/
theorem decodeTableWord_of_encode {nbits w : Nat} {i : Instr} (h : tableCommand nbits w = encode i) :
    decodeTableWord nbits w = some i := by
  have hdecode : decode (encode i) = .command i [] := by simpa using decode_encode_append i []
  simp only [decodeTableWord, h, hdecode]

/-- Settles O7: the four rows' words spell the encodings of their commands, and the two illegal words are evaluated. -/
theorem tableWordsDecode : Obligations.TableWordsDecode :=
  ⟨decodeTableWord_of_encode (by decide), decodeTableWord_of_encode (by decide), decodeTableWord_of_encode (by decide),
    decodeTableWord_of_encode (by decide), by decide, by decide⟩

/-! ### One response per command -/

/-- `ENCRYPT` answers 8 bytes (42_cipher_commands R163). -/
@[simp] theorem unmask_length (sh : Shares) : (unmask sh).length = 8 := by simp [unmask]

/-- A fault never answers the status byte of a command that completes (60_exceptions R191). -/
theorem faultCode_ne_okCode (f : Fault) : faultCode f ≠ okCode := by cases f <;> decide

/-- A command faults on the state it found, or completes with a payload of its size and nothing else on the response stream
(30_encoding R80, 60_exceptions R193). -/
theorem exec_raises_or_completes (i : Instr) (s : State) :
    (∃ f, exec i s = .next (raise f s)) ∨
    ∃ payload u, exec i s = .next (complete payload u) ∧ u.resp = s.resp ∧ payload.length = payloadLength i := by
  cases i with
  | seed material => exact .inr ⟨[], _, rfl, rfl, rfl⟩
  | setKey key => exact .inr ⟨[], _, rfl, rfl, rfl⟩
  | fill length =>
    cases hs : s.seeded with
    | false => exact .inl ⟨_, execFill_of_not_seeded length hs⟩
    | true => exact .inr ⟨_, _, execFill_of_seeded length hs, rfl, Vector.length_toList⟩
  | encrypt plaintext =>
    cases hk : s.keyed with
    | false => exact .inl ⟨_, execEncrypt_of_not_keyed plaintext hk⟩
    | true =>
      cases hs : s.seeded with
      | false => exact .inl ⟨_, execEncrypt_of_not_seeded plaintext hk hs⟩
      | true => exact .inr ⟨_, _, execEncrypt_of_ready plaintext hk hs, rfl, unmask_length _⟩

/-- Settles O51: a fault answers its non-zero status byte alone, a completion 0x00 and its payload. -/
theorem everyCommandEmitsOneResponse : Obligations.EveryCommandEmitsOneResponse := by
  intro i s
  obtain ⟨f, hexec⟩ | ⟨payload, u, hexec, hresp, hlen⟩ := exec_raises_or_completes i s
  · exact ⟨_, faultCode f, [], hexec, by simp [raise], fun _ => rfl, fun h => absurd h (faultCode_ne_okCode f)⟩
  · exact ⟨_, okCode, payload, hexec, by rw [complete_resp, hresp], fun h => absurd rfl h, fun _ => hlen⟩

end Sys2Proof.Machine

/-! PROOFS. The statements of 40_primitives: SHA-256 (R102, R104, R105, R108), `add_accumulate` (R111) and `hash_df` (R112). -/

namespace Sys2Proof.Machine

/-! ### The padding of SHA-256 -/

theorem shaPad_length (m : List Byte) : (shaPad m).length = m.length + 9 + (119 - m.length % 64) % 64 := by
  simp only [shaPad, zeros, List.length_append, List.length_cons, List.length_replicate, be_length_eq]
  omega

/-- Settles O23: the model's `(119 - len(m) mod 64) mod 64` is the least `k`, by arithmetic modulo 64. -/
theorem sha256PaddingIsLeastAndWhole : Obligations.Sha256PaddingIsLeastAndWhole := by
  intro m
  refine ⟨(119 - m.length % 64) % 64, by simp [shaPad, zeros], by omega, fun j hj => by omega, ?_⟩
  rw [shaPad_length]
  omega

/-! ### The blocks of SHA-256 -/

/-- Two blocks are compressed in order (40_primitives R105). -/
theorem shaBlocks_two {p : List Byte} (hash : ShaWords) (h : p.length = 128) :
    shaBlocks 2 hash p = shaCompress (shaCompress hash (p.take 64)) (p.drop 64) := by
  have hlast : (p.drop 64).take 64 = p.drop 64 := List.take_of_length_le (by simp [h])
  simp only [shaBlocks, hlast]

/-- One block is one compression (40_primitives R105). -/
theorem shaBlocks_one {p : List Byte} (hash : ShaWords) (h : p.length = 64) :
    shaBlocks 1 hash p = shaCompress hash p := by
  have hall : p.take 64 = p := List.take_of_length_le h.le
  simp only [shaBlocks, hall]

/-- Settles O25: up to 55 bytes the padded message has 64 bytes, from 56 to 119 bytes it has 128. -/
theorem sha256BlocksAreCompressedInOrder : Obligations.Sha256BlocksAreCompressedInOrder := by
  constructor
  · intro m h55
    have hlen : (shaPad m).length = 64 := by rw [shaPad_length]; omega
    rw [sha256, hlen, shaBlocks_one _ hlen]
  · intro m h56 h119
    have hlen : (shaPad m).length = 128 := by rw [shaPad_length]; omega
    rw [sha256, hlen, shaBlocks_two _ hlen]

/-- Settles O22, by evaluating the six messages in the kernel. -/
theorem sha256CheckValues : Obligations.Sha256CheckValues :=
  ⟨by decide +kernel, by decide +kernel, by decide +kernel, by decide +kernel, by decide +kernel, by decide +kernel⟩

/-! ### The message schedule of SHA-256 -/

/-- The next word of the schedule is made of the newest words so far (40_primitives R104). -/
def nextScheduleWord (newestFirst : List Word) : Word :=
  shaSsig1 (newestFirst.getD 1 0) + newestFirst.getD 6 0 + shaSsig0 (newestFirst.getD 14 0) + newestFirst.getD 15 0

/-- The last of the words an extension adds is made of all the words before it. -/
theorem shaExtend_succ (n : Nat) (ws : List Word) :
    shaExtend (n + 1) ws = nextScheduleWord (shaExtend n ws) :: shaExtend n ws := by
  induction n generalizing ws with
  | zero => rfl
  | succ n ih => exact ih (nextScheduleWord ws :: ws)

@[simp] theorem shaExtend_length (n : Nat) (ws : List Word) : (shaExtend n ws).length = n + ws.length := by
  induction n with
  | zero => simp [shaExtend]
  | succ n ih => rw [shaExtend_succ, List.length_cons, ih]; omega

/-- Without the words it adds last an extension is a shorter extension. -/
theorem drop_shaExtend (ws : List Word) {n m : Nat} (h : n ≤ m) : (shaExtend m ws).drop (m - n) = shaExtend n ws := by
  induction m, h using Nat.le_induction with
  | base => rw [Nat.sub_self, List.drop_zero]
  | succ m h ih => rw [shaExtend_succ, Nat.succ_sub h, List.drop_succ_cons, ih]

/-- The block's own 16 words, the newest first. -/
def blockWords (block : List Byte) : List Word := ((List.range 16).map (wordAt block)).reverse

@[simp] theorem blockWords_length (block : List Byte) : (blockWords block).length = 16 := by simp [blockWords]

theorem blockWords_getD (block : List Byte) {t : Nat} (h : t < 16) :
    (blockWords block).getD (15 - t) 0 = wordAt block t := by
  have hlen : 15 - t < (blockWords block).length := by simp; omega
  have hback : 15 - (15 - t) = t := by omega
  rw [List.getD_eq_getElem _ _ hlen]
  simp [blockWords, hback]

theorem shaSchedule_eq (block : List Byte) : shaSchedule block = (shaExtend 48 (blockWords block)).reverse := rfl

@[simp] theorem shaSchedule_length (block : List Byte) : (shaSchedule block).length = 64 := by simp [shaSchedule_eq]

/-- Of the first `16 + i` words of a schedule, the one `k` places before the newest. -/
theorem shaSchedule_getElem? (block : List Byte) {i k : Nat} (hi : i ≤ 48) (hk : k < 16) :
    (shaSchedule block)[16 + i - (k + 1)]? = some ((shaExtend i (blockWords block)).getD k 0) := by
  have hlen : k < (shaExtend i (blockWords block)).length := by simp; omega
  have hindex : (shaExtend 48 (blockWords block)).length - 1 - (16 + i - (k + 1)) = 48 - i + k := by simp; omega
  calc (shaSchedule block)[16 + i - (k + 1)]?
      = (shaExtend 48 (blockWords block))[48 - i + k]? := by
        rw [shaSchedule_eq, List.getElem?_reverse (by simp; omega), hindex]
    _ = (shaExtend i (blockWords block))[k]? := by rw [← List.getElem?_drop, drop_shaExtend _ hi]
    _ = some ((shaExtend i (blockWords block)).getD k 0) := by
        rw [List.getElem?_eq_getElem hlen, List.getD_eq_getElem _ _ hlen]

/-- The first 16 words of a schedule are the block's (40_primitives R104). -/
theorem shaSchedule_getElem?_of_lt (block : List Byte) {t : Nat} (h : t < 16) :
    (shaSchedule block)[t]? = some (wordAt block t) := by
  have hindex : 16 + 0 - (15 - t + 1) = t := by omega
  have hword := shaSchedule_getElem? block (Nat.zero_le 48) (show 15 - t < 16 by omega)
  rwa [hindex, shaExtend, blockWords_getD block h] at hword

/-- Settles O24: an extension's words are those of the shorter extensions, and its last is made of all before it. -/
theorem sha256MessageScheduleRecurrence : Obligations.Sha256MessageScheduleRecurrence := by
  intro block
  refine ⟨shaSchedule_length block, fun t h => shaSchedule_getElem?_of_lt block h, fun t h16 h64 => ?_⟩
  obtain ⟨i, rfl⟩ := Nat.exists_eq_add_of_le h16
  have hearlier {k : Nat} (hk : k < 16) := shaSchedule_getElem? block (i := i) (by omega) hk
  have hnext : (shaSchedule block)[16 + i]? = some (nextScheduleWord (shaExtend i (blockWords block))) := by
    have hnewest := shaSchedule_getElem? block (i := i + 1) (k := 0) (by omega) (by decide)
    rwa [shaExtend_succ] at hnewest
  exact ⟨_, _, _, _, hearlier (k := 1) (by decide), hearlier (k := 6) (by decide), hearlier (k := 14) (by decide),
    hearlier (k := 15) (by decide), hnext⟩

/-! ### `add_accumulate` -/

/-- The integer of a byte string written least significant byte first. -/
theorem intOf_reverse_cons (b : Byte) (s : List Byte) :
    intOf (b :: s).reverse = intOf s.reverse * 256 + b.toNat := by
  simp [intOf_append, intOf]

/-- Past its end a byte string written least significant byte first continues with zeros. -/
theorem intOf_reverse_eq (s : List Byte) : intOf s.reverse = intOf s.tail.reverse * 256 + (s.headD 0).toNat := by
  cases s with
  | nil => rfl
  | cons b s => exact intOf_reverse_cons b s

/-- One byte of an addition: the low byte of its sum stays, and the rest is carried. -/
theorem add_bytes_mod (A B x y carry n : Nat) :
    (A * 256 + x + (B * 256 + y) + carry) % 256 ^ (n + 1) =
      (A + B + (x + y + carry) / 256) % 256 ^ n * 256 + (x + y + carry) % 256 := by
  have hlow : (A * 256 + x + (B * 256 + y) + carry) % 256 = (x + y + carry) % 256 := by omega
  have hhigh : (A * 256 + x + (B * 256 + y) + carry) / 256 = A + B + (x + y + carry) / 256 := by omega
  rw [Nat.pow_succ', Nat.mod_mul, hlow, hhigh, Nat.add_comm, Nat.mul_comm]

/-- The byte loop adds integers, modulo what the bytes of the first hold (40_primitives R111). -/
theorem intOf_addBytes (as bs : List Byte) (carry : Nat) :
    intOf (addBytes as bs carry).reverse = (intOf as.reverse + intOf bs.reverse + carry) % 256 ^ as.length := by
  induction as generalizing bs carry with
  | nil => simp [addBytes, intOf, Nat.mod_one]
  | cons a as ih =>
    rw [addBytes, intOf_reverse_cons, ih, intOf_reverse_cons, intOf_reverse_eq bs, List.length_cons, add_bytes_mod]
    rfl

/-- The law of `add_accumulate` (40_primitives R111). -/
theorem intOf_addAccumulate {n m : Nat} (a : Bytes n) (b : Bytes m) (h : m ≤ n) :
    intOf (addAccumulate a b h).toList = (intOf a.toList + intOf b.toList) % 2 ^ (8 * n) := by
  rw [addAccumulate, bytesOf_toList, intOf_addBytes, List.length_reverse, Vector.length_toList, List.reverse_reverse,
    List.reverse_reverse, Nat.add_zero, Nat.pow_mul]

/-- Byte strings of length `n` with the same integer are the same (00_scope R17). -/
theorem bytes_eq_of_intOf_eq {n : Nat} {a b : Bytes n} (h : intOf a.toList = intOf b.toList) : a = b :=
  Vector.toList_inj.mp (eq_of_intOf_eq (by simp) h)

/-! ### `hash_gen` and `hash_df` -/

/-- A longer output of `hash_gen` is a hash and the output from the next value (40_primitives R113). -/
theorem hashGen_add_32 (data : Bytes 55) (outLength : Nat) :
    (hashGen data (32 + outLength)).toList =
      (sha256 data.toList).toList ++ (hashGen (addAccumulate data #v[0x01]) outLength).toList := by
  have hcount : (32 + outLength + 31) / 32 = (outLength + 31) / 32 + 1 := by omega
  have hone : beBytes 1 1 = #v[0x01] := rfl
  have htake (s : List Byte) : ((sha256 data.toList).toList ++ s).take (32 + outLength) =
      (sha256 data.toList).toList ++ s.take outLength := by
    simpa using List.take_length_add_append (l₁ := (sha256 data.toList).toList) (l₂ := s) outLength
  simp only [hashGen, bytesOf_toList, hcount, hashGenLoop, hone, htake]

/-- Settles O26: the law, whose right side commutes and associates, and one turn of the loop of `hash_gen`. -/
theorem addAccumulateIsModularAddition : Obligations.AddAccumulateIsModularAddition := by
  refine ⟨fun n m a b h => intOf_addAccumulate a b h, fun n m l a b c hb hc => bytes_eq_of_intOf_eq ?_,
    fun n a b c => bytes_eq_of_intOf_eq ?_, hashGen_add_32⟩
  · simp only [intOf_addAccumulate, Nat.mod_add_mod, Nat.add_right_comm]
  · simp only [intOf_addAccumulate, Nat.mod_add_mod, Nat.add_mod_mod, Nat.add_assoc]

/-- The hashes of `hash_df` from counter `i` on (40_primitives R112). -/
theorem hashDfLoop_eq_flatMap (m : List Byte) (outLength n i : Nat) :
    hashDfLoop m outLength n i = (List.range n).flatMap
      (fun j => (sha256 (BitVec.ofNat 8 (j + i) :: be 4 (8 * outLength) ++ m)).toList) := by
  induction n generalizing i with
  | zero => rfl
  | succ n ih =>
    rw [hashDfLoop, ih, List.range_succ_eq_map, List.flatMap_cons, List.flatMap_map]
    simp only [be, Nat.pow_zero, Nat.div_one, Nat.zero_add, Nat.succ_add, Nat.add_succ, List.cons_append, List.nil_append]

/-- Settles O27: the loop of `hash_df` from counter 1. -/
theorem hashDfConcatenatesCountedHashes : Obligations.HashDfConcatenatesCountedHashes := by
  intro m outLength h
  rw [hashDf, bytesOf_toList, hashDfLoop_eq_flatMap]

end Sys2Proof.Machine

/-! PROOFS. The statements of 41_drbg_commands: what SEED (R142) and FILL (R144 to R146) do, and that the generator depends on
its seed and the commands alone (R147). -/

namespace Sys2Proof.Machine

/-! ### SEED -/

/-- The 55 bytes of `V` and of `C` are one whole hash and 23 bytes of a second, counted 1 and 2, with 440 as their bit length
(40_primitives R112). -/
theorem hashDf_55 (m : List Byte) :
    (hashDf m 55).toList = (sha256 ([0x01, 0x00, 0x00, 0x01, 0xb8] ++ m)).toList ++
      (sha256 ([0x02, 0x00, 0x00, 0x01, 0xb8] ++ m)).toList.take 23 := by
  have hbits : be 4 (8 * 55) = [0x00, 0x00, 0x01, 0xb8] := by decide
  rw [hashDfConcatenatesCountedHashes m 55 (by decide), hbits]
  simp [List.range_succ, List.take_append]

/-- Settles O30: both `V` and `C` are 55 bytes of `hash_df`, and `C` hashes the tag 0x00 in front of the new `V`. -/
theorem seedDerivesTheGeneratorState : Obligations.SeedDerivesTheGeneratorState :=
  fun e _ => ⟨hashDf e.toList 55, hashDf (Config.tagSeeding :: (hashDf e.toList 55).toList) 55, rfl, hashDf_55 _, hashDf_55 _⟩

/-! ### FILL -/

/-- The state update as integers: the accumulations add modulo 2^440, and the counter before the increment fits its 8 bytes
(41_drbg_commands R146, 40_primitives R111). -/
theorem updatedTo_stateUpdate (s : State) : UpdatedTo s.v s.c s.gc (stateUpdate s).v (stateUpdate s).gc := by
  have hgc : intOf (be 8 s.gc.toNat) = s.gc.toNat := (intOf_be _ _).trans (Nat.mod_eq_of_lt s.gc.isLt)
  constructor
  · simp only [stateUpdate_v, updateHash, Config.tagGeneration, intOf_addAccumulate, beBytes_toList, hgc, Nat.mod_add_mod,
      Nat.reduceMul]
  · exact BitVec.toNat_add _ _

/-- Settles O31: `FILL` on a seeded block completes with `hash_gen` of the old `V` and the state update. -/
theorem fillEmitsAndUpdates : Obligations.FillEmitsAndUpdates :=
  fun length s h => ⟨_, _, execFill_of_seeded length h, updatedTo_stateUpdate s⟩

/-! ### Determinism -/

/-- Two blocks with the same registers, flags and parameter: all that a command reads (10_state R37). Their streams and sticky
bits may differ. -/
structure SameBlock (s t : State) : Prop where
  v : s.v = t.v
  c : s.c = t.c
  gc : s.gc = t.gc
  ks : s.ks = t.ks
  seeded : s.seeded = t.seeded
  keyed : s.keyed = t.keyed
  zSeq : s.zSeq = t.zSeq

/-- Both outcomes are next states that hold the same block, reached from `s` and `t` by emitting the same bytes. -/
def SameAnswers (s t : State) (o₁ o₂ : Host.Outcome State Fault Refusal) : Prop :=
  ∃ s' t' out, o₁ = .next s' ∧ o₂ = .next t' ∧ s'.resp = s.resp ++ out ∧ t'.resp = t.resp ++ out ∧ SameBlock s' t'

/-- `SEED` makes the block the same whatever the generators were (41_drbg_commands R142). -/
theorem execSeed_sameAnswers (material : Bytes 48) {s t : State} (hkeyed : s.keyed = t.keyed) (hks : s.ks = t.ks)
    (hz : s.zSeq = t.zSeq) : SameAnswers s t (execSeed material s) (execSeed material t) :=
  ⟨_, _, [0x00], rfl, rfl, rfl, rfl, rfl, rfl, rfl, hks, rfl, hkeyed, hz⟩

section
variable {s t : State} (h : SameBlock s t)
include h

theorem SameBlock.stateUpdate : SameBlock (Machine.stateUpdate s) (Machine.stateUpdate t) :=
  ⟨by simp only [stateUpdate_v, h.v, h.c, h.gc], h.c, congrArg (· + 1) h.gc, h.ks, h.seeded, h.keyed, h.zSeq⟩

theorem SameBlock.raise (f : Fault) : SameAnswers s t (.next (Machine.raise f s)) (.next (Machine.raise f t)) := by
  simp only [raise_eq]
  exact ⟨_, _, [faultCode f], rfl, rfl, rfl, rfl, h.v, h.c, h.gc, h.ks, h.seeded, h.keyed, h.zSeq⟩

/-- The same payload completes a generation of the same block (41_drbg_commands R145). -/
theorem SameBlock.generation (payload : List Byte) :
    SameAnswers s t (.next (complete payload (Machine.stateUpdate s))) (.next (complete payload (Machine.stateUpdate t))) :=
  have hu := h.stateUpdate
  ⟨_, _, okCode :: payload, rfl, rfl, rfl, rfl, hu.v, hu.c, hu.gc, hu.ks, hu.seeded, hu.keyed, hu.zSeq⟩

theorem SameBlock.execSetKey (key : Bytes 16) :
    SameAnswers s t (Machine.execSetKey key s) (Machine.execSetKey key t) :=
  ⟨_, _, [0x00], rfl, rfl, rfl, rfl, h.v, h.c, h.gc, congrArg (keySchedule · key) h.zSeq, h.seeded, rfl, h.zSeq⟩

/-- `FILL` reads `SEEDED` and the generator. -/
theorem SameBlock.execFill (length : BitVec 32) :
    SameAnswers s t (Machine.execFill length s) (Machine.execFill length t) := by
  cases hs : s.seeded with
  | false =>
    rw [execFill_of_not_seeded length hs, execFill_of_not_seeded length (h.seeded ▸ hs)]
    exact h.raise _
  | true =>
    rw [execFill_of_seeded length hs, execFill_of_seeded length (h.seeded ▸ hs), h.v]
    exact h.generation _

/-- `ENCRYPT` reads both flags, the generator and `KS`. -/
theorem SameBlock.execEncrypt (plaintext : Bytes 8) :
    SameAnswers s t (Machine.execEncrypt plaintext s) (Machine.execEncrypt plaintext t) := by
  cases hk : s.keyed with
  | false =>
    rw [execEncrypt_of_not_keyed plaintext hk, execEncrypt_of_not_keyed plaintext (h.keyed ▸ hk)]
    exact h.raise _
  | true =>
    have hk' := h.keyed ▸ hk
    cases hs : s.seeded with
    | false =>
      rw [execEncrypt_of_not_seeded plaintext hk hs, execEncrypt_of_not_seeded plaintext hk' (h.seeded ▸ hs)]
      exact h.raise _
    | true =>
      rw [execEncrypt_of_ready plaintext hk hs, execEncrypt_of_ready plaintext hk' (h.seeded ▸ hs), h.v, h.ks]
      exact h.generation _

theorem SameBlock.exec (i : Instr) : SameAnswers s t (Machine.exec i s) (Machine.exec i t) := by
  cases i with
  | seed material => exact execSeed_sameAnswers material h.keyed h.ks h.zSeq
  | fill length => exact h.execFill length
  | setKey key => exact h.execSetKey key
  | encrypt plaintext => exact h.execEncrypt plaintext

end

/-- A command with the same answers and a list with the same answers behind it are a list with the same answers. -/
theorem SameAnswers.execAll_cons {i : Instr} {is : List Instr} {s t : State} (hi : SameAnswers s t (exec i s) (exec i t))
    (his : ∀ {s t : State}, SameBlock s t → SameAnswers s t (execAll is s) (execAll is t)) :
    SameAnswers s t (execAll (i :: is) s) (execAll (i :: is) t) := by
  obtain ⟨s', t', out, hs, ht, hresp, hresp', hblock⟩ := hi
  obtain ⟨s'', t'', out', hs', ht', hmore, hmore', hblock'⟩ := his hblock
  rw [Machine.execAll_cons hs, Machine.execAll_cons ht]
  refine ⟨s'', t'', out ++ out', hs', ht', ?_, ?_, hblock'⟩
  · rw [hmore, hresp, List.append_assoc]
  · rw [hmore', hresp', List.append_assoc]

/-- The same block answers the same bytes to the same commands. -/
theorem SameBlock.execAll {s t : State} (h : SameBlock s t) (is : List Instr) :
    SameAnswers s t (Machine.execAll is s) (Machine.execAll is t) := by
  induction is generalizing s t with
  | nil => exact ⟨s, t, [], rfl, rfl, (List.append_nil _).symm, (List.append_nil _).symm, h⟩
  | cons i is ih => exact (h.exec i).execAll_cons ih

/-- Settles O36: `SEED` makes the two blocks the same, and from there they stay the same. -/
theorem responsesAfterSeedDependOnSeedAndCommands : Obligations.ResponsesAfterSeedDependOnSeedAndCommands := by
  intro e is s₁ s₂ hkeyed hks hz
  have hseed : SameAnswers s₁ s₂ (exec (.seed e) s₁) (exec (.seed e) s₂) := execSeed_sameAnswers e hkeyed hks hz
  obtain ⟨t₁, t₂, out, h₁, h₂, hresp₁, hresp₂, hblock⟩ := hseed.execAll_cons (is := is) fun h => h.execAll is
  exact ⟨t₁, t₂, out, h₁, h₂, hresp₁, hresp₂, hblock.v, hblock.c, hblock.gc⟩

end Sys2Proof.Machine

/-! PROOFS. The statements of 42_cipher_commands: what SET_KEY loads (R161, R162), and ENCRYPT through the masked rounds (R163,
R164, R166). -/

namespace Sys2Proof.Machine

/-! ### The words of a byte string -/

/-- A word is the integer of its four bytes, which fits 32 bits (00_scope R17, 20_memory R54). -/
theorem wordAt_toNat (s : List Byte) (j : Nat) : (wordAt s j).toNat = intOf ((s.drop (4 * j)).take 4) := by
  have hcount : 4 * j + 3 + 1 - 4 * j = 4 := by omega
  have hfits : intOf ((s.drop (4 * j)).take 4) < 2 ^ 32 :=
    calc intOf ((s.drop (4 * j)).take 4) < 256 ^ ((s.drop (4 * j)).take 4).length := intOf_lt _
      _ ≤ 256 ^ 4 := Nat.pow_le_pow_right (by decide) (List.length_take_le _ _)
  rw [wordAt, slice, hcount, BitVec.toNat_ofNat, Nat.mod_eq_of_lt hfits]

/-- The last word of a byte string is the integer of what stands behind the words before it. -/
theorem wordAt_toNat_of_last {s : List Byte} {j : Nat} (h : s.length = 4 * j + 4) :
    (wordAt s j).toNat = intOf (s.drop (4 * j)) := by
  rw [wordAt_toNat, List.take_of_length_le (by simp [h])]

/-! ### SET_KEY -/

/-- Settles O38: word `i` of the key is the word `3 - i` of its bytes, and the other words are the expansion's. -/
theorem setKeyLoadsAndExpandsTheKey : Obligations.SetKeyLoadsAndExpandsTheKey :=
  fun key s => ⟨keySchedule s.zSeq key, rfl, wordAt_toNat_of_last key.length_toList, wordAt_toNat _ 2, wordAt_toNat _ 1,
    wordAt_toNat _ 0, scheduleExpanded_keySchedule s.zSeq key⟩

/-! ### ENCRYPT -/

/-- One more round key is one more round, with the next mask word (42_cipher_commands R163, R164). -/
theorem cipherRounds_concat (maskBytes : List Byte) (ks : List Word) (k : Word) (sh : Shares) :
    cipherRounds maskBytes (ks ++ [k]) sh =
      cipherRound (cipherRounds maskBytes ks sh) (wordAt maskBytes (ks.length + 2)) k := by
  simp [cipherRounds, List.zipIdx_append]

/-- The shares after `r + 1` rounds are made from those after `r` (42_cipher_commands R163, R164). -/
theorem cipherRounds_take_succ (maskBytes : List Byte) (ks : Vector Word 44) (sh : Shares) {r : Nat} (h : r < 44) :
    cipherRounds maskBytes (ks.toList.take (r + 1)) sh =
      cipherRound (cipherRounds maskBytes (ks.toList.take r) sh) (wordAt maskBytes (r + 2)) ks[r] := by
  have hlen : r < ks.toList.length := by simpa using h
  have hcount : (ks.toList.take r).length = r := List.length_take_of_le hlen.le
  rw [← List.take_concat_get' _ _ hlen, cipherRounds_concat, hcount, Vector.getElem_toList]

/-- Unblinding gives the plaintext halves back (42_cipher_commands R163). -/
theorem blind_unmasks (maskBytes plaintext : List Byte) :
    (blind maskBytes plaintext).x ^^^ wordAt maskBytes 0 = wordAt plaintext 0 ∧
    (blind maskBytes plaintext).y ^^^ wordAt maskBytes 1 = wordAt plaintext 1 := by
  simp [blind]

/-- Settles O44: the shares of round `r` are those after the first `r` round keys, by the model's own rounds. -/
theorem encryptFollowsTheMaskedRounds : Obligations.EncryptFollowsTheMaskedRounds := by
  intro plaintext s hk hs
  obtain ⟨hx, hy⟩ := blind_unmasks (hashGen s.v 184).toList plaintext.toList
  have hall : s.ks.toList.take 44 = s.ks.toList := List.take_of_length_le (by simp)
  refine ⟨wordAt (hashGen s.v 184).toList,
    fun r => cipherRounds (hashGen s.v 184).toList (s.ks.toList.take r) (blind (hashGen s.v 184).toList plaintext.toList),
    _, fun j _ => wordAt_toNat _ j, rfl, rfl, ?_, ?_, fun r h => cipherRounds_take_succ _ s.ks _ h,
    execEncrypt_of_ready plaintext hk hs, ?_, rfl⟩
  · exact (congrArg BitVec.toNat hx).trans (wordAt_toNat _ 0)
  · exact (congrArg BitVec.toNat hy).trans (wordAt_toNat_of_last plaintext.length_toList)
  · simp only [complete_resp, stateUpdate_resp, hall]
    rfl

end Sys2Proof.Machine

/-! PROOFS. The statements of 60_exceptions: every command and every step ends in a next state (R190), which command ends with
which status (R192, R198), and what a fault changes (R193 to R197). -/

namespace Sys2Proof.Machine

/-! ### Every step answers -/

theorem hostMove_answers (s : State) : ∃ t, hostMove s = .next t := by
  cases hhost : s.host with
  | nil => exact ⟨_, hostMove_of_nil hhost⟩
  | cons move moves =>
    cases move with
    | send bytes => exact ⟨_, hostMove_of_send hhost⟩
    | sample => exact ⟨_, hostMove_of_sample hhost⟩
    | reset => exact ⟨_, hostMove_of_reset hhost⟩
    | resetDuring bytes emitted =>
      obtain ⟨_, hafter⟩ := runDecoded_answers (decode (s.cmd ++ bytes)) (receive bytes { s with host := moves })
      exact ⟨_, hostMove_of_resetDuring hhost hafter⟩

theorem step_answers (s : State) : ∃ t, step s = .next t := by
  rw [step_eq]
  split
  · exact hostMove_answers s
  · exact runDecoded_answers _ s

/-- Settles O17: a step is a host move or what stands at the head of the stream, and both answer. -/
theorem everyStepAnswersANextState : Obligations.EveryStepAnswersANextState := ⟨step_answers, exec_answers⟩

/-! ### The three faults -/

/-- Settles O10: the byte decodes to an illegal command of one byte, which the step raises. -/
theorem illegalOpcodeIsReported : Obligations.IllegalOpcodeIsReported := by
  intro s op rest hcmd h1 h2 h3 h4
  have hdecode : decode s.cmd = .illegal op rest :=
    hcmd ▸ (illegalExactlyOutsideTheOpcodeMap.1 op rest).mpr ⟨h1, h2, h3, h4⟩
  simp only [step_eq, hdecode, reduceCtorEq, if_false]
  rfl

/-- Settles O32: both commands raise `NOT_SEEDED`. -/
theorem notSeededIsReported : Obligations.NotSeededIsReported :=
  ⟨fun length _ hs => execFill_of_not_seeded length hs, fun plaintext _ hk hs => execEncrypt_of_not_seeded plaintext hk hs⟩

/-- Settles O46: `ENCRYPT` raises `KEY_NOT_SET` before it looks at `SEEDED`. -/
theorem keyNotSetIsReported : Obligations.KeyNotSetIsReported :=
  fun plaintext _ hk => execEncrypt_of_not_keyed plaintext hk

/-- Settles O47: without a key `SEEDED` is not looked at, and with one it decides between fault and block. -/
theorem encryptReportsTheFirstMissingPrecondition : Obligations.EncryptReportsTheFirstMissingPrecondition := by
  intro plaintext s
  cases hk : s.keyed with
  | false =>
    refine ⟨_, zeros 8, execEncrypt_of_not_keyed plaintext hk, rfl, ?_⟩
    simp [raise_eq, faultCode]
  | true =>
    cases hs : s.seeded with
    | false =>
      refine ⟨_, zeros 8, execEncrypt_of_not_seeded plaintext hk hs, rfl, ?_⟩
      simp [raise_eq, faultCode]
    | true =>
      refine ⟨_, _, execEncrypt_of_ready plaintext hk hs, unmask_length _, rfl, ?_⟩
      simp

/-! ### The status of a command -/

/-- A command completes with one response, or raises `NOT_SEEDED`, or is an `ENCRYPT` that raises `KEY_NOT_SET`
(60_exceptions R190, R192). -/
theorem exec_completes_or_faults {i : Instr} {s t : State} (h : exec i s = .next t) :
    (∃ payload, t.resp = s.resp ++ okCode :: payload) ∨ t = raise .notSeeded s ∨
      ((∃ plaintext, i = .encrypt plaintext) ∧ t = raise .keyNotSet s) := by
  obtain ⟨_, _, _, -, he⟩ | ⟨_, -, he⟩ | ⟨-, -, he⟩ | ⟨plaintext, hi, -, he⟩ |
    ⟨-, -, payload, he⟩ := exec_cases i s
  all_goals cases he.symm.trans h
  · exact .inl ⟨[], rfl⟩
  · exact .inl ⟨[], rfl⟩
  · exact .inr (.inl rfl)
  · exact .inr (.inr ⟨⟨plaintext, hi⟩, rfl⟩)
  · exact .inl ⟨payload, rfl⟩

/-- The status a command can answer (60_exceptions R191, R192). -/
theorem exec_status {i : Instr} {s t : State} (h : exec i s = .next t) :
    ∃ status payload, t.resp = s.resp ++ status :: payload ∧
      (status = 0x00 ∨ status = 0x02 ∨ (status = 0x03 ∧ ∃ plaintext, i = .encrypt plaintext)) := by
  obtain ⟨payload, hresp⟩ | rfl | ⟨hi, rfl⟩ := exec_completes_or_faults h
  · exact ⟨okCode, payload, hresp, .inl rfl⟩
  · exact ⟨0x02, [], rfl, .inr (.inl rfl)⟩
  · exact ⟨0x03, [], rfl, .inr (.inr ⟨rfl, hi⟩)⟩

/-- Settles O52: the statuses of `FILL` and `ENCRYPT` by `exec_status`, and the faults that occur by their own statements. -/
theorem statusCodesOfEachCommand : Obligations.StatusCodesOfEachCommand := by
  refine ⟨fun _ _ => ⟨_, rfl, rfl⟩, fun _ _ => ⟨_, rfl, rfl⟩, ?fill, ?encrypt, ?illegal,
    fun n => ⟨_, notSeededIsReported.1 n _ rfl, rfl⟩, fun p => ⟨_, keyNotSetIsReported p _ rfl, rfl⟩, ?keyedOnly⟩
  case fill =>
    intro n s t h
    obtain ⟨status, payload, hresp, h0 | h2 | ⟨-, _, hi⟩⟩ := exec_status h
    · exact ⟨status, payload, hresp, .inl h0⟩
    · exact ⟨status, payload, hresp, .inr h2⟩
    · cases hi
  case encrypt =>
    intro p s t h
    obtain ⟨status, payload, hresp, hstatus⟩ := exec_status h
    exact ⟨status, payload, hresp, hstatus.imp_right (.imp_right And.left)⟩
  case illegal =>
    intro s op rest hcmd h1 h2 h3 h4
    exact ⟨_, illegalOpcodeIsReported s op rest hcmd h1 h2 h3 h4, rfl⟩
  case keyedOnly =>
    intro key p
    have hkey : exec (.setKey key) State.reset =
      .next (complete [] { State.reset with ks := keySchedule State.reset.zSeq key, keyed := true }) := rfl
    rw [execAll_cons hkey, execAll_cons (notSeededIsReported.2 p _ rfl rfl)]
    exact ⟨_, rfl, rfl⟩

/-- What a fault of a legal command changes, in terms of the status it answers (60_exceptions R191, R194). -/
theorem raise_eq_of_ne_illegalCommand {f : Fault} (hf : f ≠ .illegalCommand) (s : State) :
    raise f s = { s with
      fNotSeeded := s.fNotSeeded || decide (faultCode f = 0x02)
      fKeyNotSet := s.fKeyNotSet || decide (faultCode f = 0x03)
      resp := s.resp ++ [faultCode f] } := by
  cases f with
  | illegalCommand => exact absurd rfl hf
  | notSeeded => simp [raise_eq, faultCode]
  | keyNotSet => simp [raise_eq, faultCode]

/-- A command that answers a non-zero status raised the fault of that status (60_exceptions R190, R193). -/
theorem exec_raises_of_status_ne_ok {i : Instr} {s t : State} {status : Byte} {payload : List Byte} (h : exec i s = .next t)
    (hresp : t.resp = s.resp ++ status :: payload) (hstatus : status ≠ okCode) :
    ∃ f, f ≠ .illegalCommand ∧ t = raise f s ∧ status = faultCode f := by
  obtain ⟨_, hok⟩ | rfl | ⟨-, rfl⟩ := exec_completes_or_faults h
  · cases List.append_cancel_left (hok.symm.trans hresp)
    exact absurd rfl hstatus
  · cases List.append_cancel_left hresp
    exact ⟨.notSeeded, nofun, rfl, rfl⟩
  · cases List.append_cancel_left hresp
    exact ⟨.keyNotSet, nofun, rfl, rfl⟩

/-- Settles O53: the command raised the fault of its status, and that changes its sticky bit and the response alone. -/
theorem faultingCommandChangesOnlyItsStickyBit : Obligations.FaultingCommandChangesOnlyItsStickyBit := by
  intro i s t status payload h hresp hstatus
  obtain ⟨f, hf, rfl, rfl⟩ := exec_raises_of_status_ne_ok h hresp hstatus
  exact raise_eq_of_ne_illegalCommand hf s

end Sys2Proof.Machine

/-! PROOFS. The statements of 70_reset_and_hazards: only reset clears a flag or a sticky bit (R220), and a block with seed and
key never faults (R222, R224). -/

namespace Sys2Proof.Machine

/-! ### Only reset clears a bit of `STATUS` -/

/-- Every bit of `STATUS` that is 1 in `s` is 1 in `t` (10_state R27, R28, R31). -/
structure KeepsStatusBits (s t : State) : Prop where
  seeded : s.seeded = true → t.seeded = true
  keyed : s.keyed = true → t.keyed = true
  fIllegal : s.fIllegal = true → t.fIllegal = true
  fNotSeeded : s.fNotSeeded = true → t.fNotSeeded = true
  fKeyNotSet : s.fKeyNotSet = true → t.fKeyNotSet = true

theorem KeepsStatusBits.refl (s : State) : KeepsStatusBits s s := ⟨id, id, id, id, id⟩

/-- A fault sets its own sticky bit and clears nothing (60_exceptions R193, R194). -/
theorem raise_keepsStatusBits (f : Fault) (s : State) : KeepsStatusBits s (raise f s) := by
  rw [raise_eq]
  exact ⟨id, id, Bool.or_inl, Bool.or_inl, Bool.or_inl⟩

/-- No command clears a bit of `STATUS`: `SEED` and `SET_KEY` set theirs, a fault sets a sticky bit, a generation writes none
(10_state R37). -/
theorem exec_keepsStatusBits {i : Instr} {s t : State} (h : exec i s = .next t) : KeepsStatusBits s t := by
  obtain ⟨_, _, _, -, he⟩ | ⟨_, -, he⟩ | ⟨-, -, he⟩ | ⟨_, -, -, he⟩ | ⟨-, -, _, he⟩ := exec_cases i s
  all_goals cases he.symm.trans h
  · exact ⟨fun _ => rfl, id, id, id, id⟩
  · exact ⟨id, fun _ => rfl, id, id, id⟩
  · exact raise_keepsStatusBits .notSeeded s
  · exact raise_keepsStatusBits .keyNotSet s
  · exact ⟨id, id, id, id, id⟩

/-- Consuming a command's bytes does not touch `STATUS` (20_memory R51). -/
theorem KeepsStatusBits.of_consumeTo {rest : List Byte} {s t : State} (h : KeepsStatusBits (consumeTo rest s) t) :
    KeepsStatusBits s t :=
  ⟨h.seeded, h.keyed, h.fIllegal, h.fNotSeeded, h.fKeyNotSet⟩

theorem runDecoded_keepsStatusBits {d : Decoded} {s t : State} (h : runDecoded d s = .next t) : KeepsStatusBits s t := by
  cases d with
  | command i rest => exact (exec_keepsStatusBits h).of_consumeTo
  | illegal op rest => cases h; exact (raise_keepsStatusBits .illegalCommand _).of_consumeTo
  | incomplete => cases h; exact .refl s

/-- The host's next move is a reset event, on its own or during a command (70_reset_and_hazards R220, R221, R231). -/
def NextMoveResets (s : State) : Prop :=
  ∃ moves, s.host = .reset :: moves ∨ ∃ bytes emitted, s.host = .resetDuring bytes emitted :: moves

/-- A move of the host that is not a reset leaves `STATUS` as it was (20_memory R51, R53, R57). -/
theorem hostMove_keepsStatusBits_or_resets {s t : State} (h : hostMove s = .next t) :
    KeepsStatusBits s t ∨ NextMoveResets s := by
  cases hhost : s.host with
  | nil => rw [hostMove_of_nil hhost] at h; cases h; exact .inl (.refl s)
  | cons move moves =>
    cases move with
    | send bytes => rw [hostMove_of_send hhost] at h; cases h; exact .inl ⟨id, id, id, id, id⟩
    | sample => rw [hostMove_of_sample hhost] at h; cases h; exact .inl ⟨id, id, id, id, id⟩
    | reset => exact .inr ⟨moves, .inl hhost⟩
    | resetDuring bytes emitted => exact .inr ⟨moves, .inr ⟨bytes, emitted, hhost⟩⟩

/-- Everything a step can do to the bits of `STATUS`: keep those that are 1, or be the host's reset of a waiting block
(70_reset_and_hazards R220; logs 4, 7). -/
theorem step_keepsStatusBits_or_resets {s t : State} (h : step s = .next t) :
    KeepsStatusBits s t ∨ (decode s.cmd = .incomplete ∧ NextMoveResets s) := by
  rw [step_eq] at h
  split at h
  case isTrue hwaits => exact (hostMove_keepsStatusBits_or_resets h).imp_right (.intro hwaits)
  case isFalse => exact .inl (runDecoded_keepsStatusBits h)

/-- Settles O54: a step that clears one of the bits does not keep them all, so it is a reset. -/
theorem onlyResetClearsFlags : Obligations.OnlyResetClearsFlags := by
  intro s t h hcleared
  refine (step_keepsStatusBits_or_resets h).resolve_left fun hkeeps => ?_
  obtain ⟨ht, hs⟩ | ⟨ht, hs⟩ | ⟨ht, hs⟩ | ⟨ht, hs⟩ | ⟨ht, hs⟩ := hcleared
  · exact Bool.false_ne_true (ht.symm.trans (hkeeps.seeded hs))
  · exact Bool.false_ne_true (ht.symm.trans (hkeeps.keyed hs))
  · exact Bool.false_ne_true (ht.symm.trans (hkeeps.fIllegal hs))
  · exact Bool.false_ne_true (ht.symm.trans (hkeeps.fNotSeeded hs))
  · exact Bool.false_ne_true (ht.symm.trans (hkeeps.fKeyNotSet hs))

/-! ### A block with seed and key -/

/-- With seed and key no precondition is violated, so no command sets a sticky bit (60_exceptions R196, R197). -/
theorem exec_sticky_of_ready {i : Instr} {s t : State} (hs : s.seeded = true) (hk : s.keyed = true)
    (h : exec i s = .next t) :
    t.fIllegal = s.fIllegal ∧ t.fNotSeeded = s.fNotSeeded ∧ t.fKeyNotSet = s.fKeyNotSet := by
  obtain ⟨_, _, _, -, he⟩ | ⟨_, -, he⟩ | ⟨-, hs', -⟩ | ⟨_, -, hk', -⟩ | ⟨-, -, _, he⟩ := exec_cases i s
  case inr.inr.inl => exact absurd (hs.symm.trans hs') nofun
  case inr.inr.inr.inl => exact absurd (hk.symm.trans hk') nofun
  all_goals
    cases he.symm.trans h
    exact ⟨rfl, rfl, rfl⟩

/-- Settles O56, by induction on the list of commands; seed and key stay in place along it. -/
theorem initialisedBlockNeverFaults : Obligations.InitialisedBlockNeverFaults := by
  intro is
  induction is with
  | nil => exact fun s hs hk => ⟨s, rfl, hs, hk, rfl, rfl, rfl⟩
  | cons i is ih =>
    intro s hs hk
    obtain ⟨u, hu⟩ := exec_answers i s
    have hkeeps := exec_keepsStatusBits hu
    obtain ⟨hillegal, hnotSeeded, hkeyNotSet⟩ := exec_sticky_of_ready hs hk hu
    obtain ⟨t, ht, hseeded, hkeyed, hillegal', hnotSeeded', hkeyNotSet'⟩ := ih u (hkeeps.seeded hs) (hkeeps.keyed hk)
    exact ⟨t, (execAll_cons hu is).trans ht, hseeded, hkeyed, hillegal'.trans hillegal, hnotSeeded'.trans hnotSeeded,
      hkeyNotSet'.trans hkeyNotSet⟩

end Sys2Proof.Machine

/-! PROOFS. The other statements of 42_cipher_commands: the masked data path computes the plain cipher (R168, R169), and no
response of the cipher half depends on the generator (R169). -/

namespace Sys2Proof.Machine

/-! ### A masked round -/

/-- The masked-AND identity (42_cipher_commands R168), bit by bit. -/
theorem maskedAnd_xor_mask (a ma b mb mc : Word) : maskedAnd a ma b mb mc ^^^ mc = (a ^^^ ma) &&& (b ^^^ mb) := by
  have hbit : ∀ a ma b mb mc : Bool,
      ((((((a && b) ^^ mc) ^^ (a && mb)) ^^ (b && ma)) ^^ (ma && mb)) ^^ mc) = ((a ^^ ma) && (b ^^ mb)) := by decide
  refine BitVec.eq_of_getLsbD_eq fun i _ => ?_
  simp only [maskedAnd, BitVec.getLsbD_xor, BitVec.getLsbD_and]
  exact hbit _ _ _ _ _

/-- Settles O42: the identity, and the counter-example by evaluation. -/
theorem maskedAndUnmasksToTheAndOfTrueValues : Obligations.MaskedAndUnmasksToTheAndOfTrueValues :=
  ⟨maskedAnd_xor_mask, by decide⟩

/-- Rotation acts on two shares separately: of the two shifted parts at most one reaches a given bit. -/
theorem rotl_xor (a b : Word) (n : Nat) : rotl (a ^^^ b) n = rotl a n ^^^ rotl b n := by
  refine BitVec.eq_of_getLsbD_eq fun i hi => ?_
  simp only [rotl, BitVec.getLsbD_xor, BitVec.getLsbD_or, BitVec.getLsbD_shiftLeft, BitVec.getLsbD_ushiftRight]
  by_cases hn : i < n
  · simp [hn]
  · have hlow (w : Word) : w.getLsbD (32 - n + i) = false := BitVec.getLsbD_of_ge _ _ (by omega)
    simp [hn, hi, hlow]

/-- The true values that shares stand for (10_state R33, 42_cipher_commands R169). -/
def Shares.trueValues (sh : Shares) : Word × Word := (sh.x ^^^ sh.mx, sh.y ^^^ sh.my)

/-- A masked round is the plain round on the true values (42_cipher_commands R169). -/
theorem trueValues_cipherRound (sh : Shares) (mc k : Word) :
    (cipherRound sh mc k).trueValues = plainRound sh.trueValues k := by
  have hand := maskedAnd_xor_mask (rotl sh.x 1) (rotl sh.mx 1) (rotl sh.x 8) (rotl sh.mx 8) mc
  refine Prod.ext ?_ rfl
  simp only [Shares.trueValues, plainRound, rotl_xor, ← hand]
  simp only [cipherRound]
  ac_rfl

/-- Settles O43: the two true values of a round's shares. -/
theorem roundFollowsThePlainRound : Obligations.RoundFollowsThePlainRound := fun sh mc k =>
  Prod.ext_iff.mp (trueValues_cipherRound sh mc k)

/-! ### ENCRYPT as the plain cipher -/

/-- The masked rounds are the plain rounds on the true values, whatever the masks (42_cipher_commands R169). -/
theorem trueValues_cipherRounds (maskBytes : List Byte) (ks : List Word) (sh : Shares) :
    (cipherRounds maskBytes ks sh).trueValues = ks.foldl plainRound sh.trueValues := by
  induction ks using List.reverseRecOn with
  | nil => rfl
  | append_singleton ks k ih => rw [cipherRounds_concat, trueValues_cipherRound, ih, List.foldl_concat]

/-- Blinding, the masked rounds and unmasking are the plain encryption, whatever the masks (42_cipher_commands R169). -/
theorem unmask_cipherRounds_blind (maskBytes plaintext : List Byte) (ks : List Word) :
    unmask (cipherRounds maskBytes ks (blind maskBytes plaintext)) = plainEncrypt ks plaintext := by
  have hblind : (blind maskBytes plaintext).trueValues = (wordAt plaintext 0, wordAt plaintext 1) :=
    Prod.ext_iff.mpr (blind_unmasks maskBytes plaintext)
  have hrounds := trueValues_cipherRounds maskBytes ks (blind maskBytes plaintext)
  rw [hblind] at hrounds
  rw [plainEncrypt, ← hrounds]
  rfl

/-- `ENCRYPT` on a block with key and seed, without the masks (42_cipher_commands R163, R169). -/
theorem exec_encrypt_of_ready (plaintext : Bytes 8) {s : State} (hk : s.keyed = true) (hs : s.seeded = true) :
    exec (.encrypt plaintext) s = .next (complete (plainEncrypt s.ks.toList plaintext.toList) (stateUpdate s)) := by
  rw [← unmask_cipherRounds_blind]
  exact execEncrypt_of_ready plaintext hk hs

/-- Settles O45: the response is the plain encryption, and `V` and `GC` are those of one generation. -/
theorem encryptIsThePlainCipher : Obligations.EncryptIsThePlainCipher :=
  fun plaintext s hk hs => ⟨_, _, exec_encrypt_of_ready plaintext hk hs, updatedTo_stateUpdate s⟩

/-- `SET_KEY` and an `ENCRYPT` on a seeded block answer the plain encryption under the new schedule (42_cipher_commands R160,
R169). -/
theorem execAll_setKey_encrypt (key : Bytes 16) (plaintext : Bytes 8) {s : State} (hs : s.seeded = true) :
    ∃ t, execAll [.setKey key, .encrypt plaintext] s = .next t ∧
      t.resp = s.resp ++ 0x00 :: 0x00 :: plainEncrypt (keySchedule s.zSeq key).toList plaintext.toList := by
  have hkey : exec (.setKey key) s = .next (complete [] { s with ks := keySchedule s.zSeq key, keyed := true }) := rfl
  rw [execAll_cons hkey]
  refine ⟨_, execAll_cons (exec_encrypt_of_ready plaintext rfl ?seeded) [], ?resp⟩
  case seeded => exact hs
  case resp => simp [okCode]

/-- Settles O49: the plain encryption of the vector under its key's schedule, evaluated in the kernel. -/
theorem publishedVectorWithDefaultZSeq : Obligations.PublishedVectorWithDefaultZSeq := by
  intro s hz hs
  obtain ⟨t, ht, hresp⟩ := execAll_setKey_encrypt _ _ hs
  refine ⟨t, ht, hresp.trans (congrArg (s.resp ++ 0x00 :: 0x00 :: ·) ?_)⟩
  rw [hz]
  decide +kernel

/-! ### The generator does not show -/

/-- The second of two such states is the first with another generator. -/
theorem agreeButGenerator_iff {s t : State} :
    AgreeButGenerator s t ↔ ∃ v c gc, t = { s with v := v, c := c, gc := gc } := by
  constructor
  · intro h
    exact ⟨t.v, t.c, t.gc, h⟩
  · rintro ⟨v, c, gc, rfl⟩
    rfl

/-- Both outcomes are next states, and these differ at most in the generator. -/
def AnswersAgreeButGenerator (o₁ o₂ : Host.Outcome State Fault Refusal) : Prop :=
  ∃ s' t', o₁ = .next s' ∧ o₂ = .next t' ∧ AgreeButGenerator s' t'

section
variable {s t : State} (h : AgreeButGenerator s t)
include h

theorem AgreeButGenerator.seeded_eq : t.seeded = s.seeded := by rw [h]

theorem AgreeButGenerator.keyed_eq : t.keyed = s.keyed := by rw [h]

theorem AgreeButGenerator.ks_eq : t.ks = s.ks := by rw [h]

theorem AgreeButGenerator.raise (f : Fault) : AgreeButGenerator (Machine.raise f s) (Machine.raise f t) := by
  obtain ⟨v, c, gc, rfl⟩ := agreeButGenerator_iff.mp h
  simp only [raise_eq]
  rfl

theorem AgreeButGenerator.complete (payload : List Byte) :
    AgreeButGenerator (Machine.complete payload s) (Machine.complete payload t) := by
  obtain ⟨v, c, gc, rfl⟩ := agreeButGenerator_iff.mp h
  rfl

theorem AgreeButGenerator.stateUpdate : AgreeButGenerator (Machine.stateUpdate s) (Machine.stateUpdate t) := by
  obtain ⟨v, c, gc, rfl⟩ := agreeButGenerator_iff.mp h
  rfl

theorem AgreeButGenerator.execSetKey (key : Bytes 16) :
    AnswersAgreeButGenerator (Machine.execSetKey key s) (Machine.execSetKey key t) := by
  obtain ⟨v, c, gc, rfl⟩ := agreeButGenerator_iff.mp h
  exact ⟨_, _, rfl, rfl, rfl⟩

/-- `ENCRYPT` reads both flags, and of the registers shows `KS` only: the generator goes into the masks, which cancel. -/
theorem AgreeButGenerator.execEncrypt (plaintext : Bytes 8) :
    AnswersAgreeButGenerator (Machine.execEncrypt plaintext s) (Machine.execEncrypt plaintext t) := by
  cases hk : s.keyed with
  | false =>
    have hk' := h.keyed_eq.trans hk
    exact ⟨_, _, execEncrypt_of_not_keyed plaintext hk, execEncrypt_of_not_keyed plaintext hk', h.raise _⟩
  | true =>
    have hk' := h.keyed_eq.trans hk
    cases hs : s.seeded with
    | false =>
      have hs' := h.seeded_eq.trans hs
      exact ⟨_, _, execEncrypt_of_not_seeded plaintext hk hs, execEncrypt_of_not_seeded plaintext hk' hs', h.raise _⟩
    | true =>
      have hs' := h.seeded_eq.trans hs
      refine ⟨_, _, exec_encrypt_of_ready plaintext hk hs, exec_encrypt_of_ready plaintext hk' hs', ?_⟩
      rw [h.ks_eq]
      exact h.stateUpdate.complete _

theorem AgreeButGenerator.exec {i : Instr} (hi : isCipher i = true) :
    AnswersAgreeButGenerator (Machine.exec i s) (Machine.exec i t) := by
  cases i with
  | seed material => cases hi
  | fill length => cases hi
  | setKey key => exact h.execSetKey key
  | encrypt plaintext => exact h.execEncrypt plaintext

end

/-- Settles O48, by induction on the list of commands. -/
theorem cipherResponsesIgnoreTheGenerator : Obligations.CipherResponsesIgnoreTheGenerator := by
  intro is
  induction is with
  | nil => exact fun s t h _ => ⟨s, t, rfl, rfl, h⟩
  | cons i is ih =>
    intro s t h hcipher
    obtain ⟨hi, his⟩ : isCipher i = true ∧ is.all isCipher = true := by simpa using hcipher
    obtain ⟨s', t', hs, ht, h'⟩ := h.exec hi
    obtain ⟨s'', t'', hs', ht', h''⟩ := ih s' t' h' his
    exact ⟨s'', t'', (execAll_cons hs is).trans hs', (execAll_cons ht is).trans ht', h''⟩

end Sys2Proof.Machine

/-! PROOFS. The other statements of 40_primitives and 41_drbg_commands: `hash_gen` in closed form (R113), and what a generation
leaves whatever its length (R149). -/

namespace Sys2Proof.Machine

/-! ### `hash_gen` -/

/-- A byte string is the bytes of its integer, which fits its length (00_scope R17). -/
theorem be_intOf_mod {n : Nat} (data : Bytes n) : be n (intOf data.toList % 2 ^ (8 * n)) = data.toList := by
  have hlen : data.toList.length = n := data.length_toList
  have hfits : intOf data.toList < 2 ^ (8 * n) := by
    simpa only [hlen, Nat.pow_mul, Nat.reducePow] using intOf_lt data.toList
  have hback : be n (intOf data.toList) = data.toList := by simpa only [hlen] using be_intOf data.toList
  rw [Nat.mod_eq_of_lt hfits, hback]

/-- The increment of `hash_gen` as integers (40_primitives R111, R113). -/
theorem intOf_increment (data : Bytes 55) :
    intOf (addAccumulate data (beBytes 1 1)).toList = (intOf data.toList + 1) % 2 ^ 440 := by
  have hone : intOf (beBytes 1 1).toList = 1 := by decide
  simpa only [hone, Nat.reduceMul] using intOf_addAccumulate data (beBytes 1 1) (by decide)

/-- The hashes of `hash_gen` are those of the successors of its value (40_primitives R113). -/
theorem hashGenLoop_eq_flatMap (n : Nat) (data : Bytes 55) :
    hashGenLoop n data = (List.range n).flatMap
      (fun j => (sha256 (be 55 ((intOf data.toList + j) % 2 ^ 440))).toList) := by
  induction n generalizing data with
  | zero => rfl
  | succ n ih =>
    rw [hashGenLoop, ih, List.range_succ_eq_map, List.flatMap_cons, List.flatMap_map, Nat.add_zero,
      be_intOf_mod (n := 55)]
    simp only [intOf_increment, Nat.mod_add_mod, Nat.add_assoc, Nat.add_comm 1, Nat.succ_eq_add_one]

/-- Settles O28: the loop of `hash_gen` in closed form. -/
theorem hashGenConcatenatesHashesOfSuccessors : Obligations.HashGenConcatenatesHashesOfSuccessors := by
  intro m outLength
  rw [hashGen, bytesOf_toList, hashGenLoop_eq_flatMap]

/-- More iterations of the loop only add hashes behind (40_primitives R113). -/
theorem hashGenLoop_add (n k : Nat) (data : Bytes 55) : ∃ more, hashGenLoop (n + k) data = hashGenLoop n data ++ more := by
  induction n generalizing data with
  | zero => exact ⟨_, rfl⟩
  | succ n ih =>
    obtain ⟨more, hmore⟩ := ih (addAccumulate data (beBytes 1 1))
    exact ⟨more, by rw [Nat.succ_add, hashGenLoop, hmore, hashGenLoop, List.append_assoc]⟩

/-- Settles O29: a longer output has the whole hashes of the shorter one in front. -/
theorem hashGenOutputsArePrefixes : Obligations.HashGenOutputsArePrefixes := by
  intro m l₁ l₂ h
  obtain ⟨k, hk⟩ : ∃ k, (l₂ + 31) / 32 = (l₁ + 31) / 32 + k := Nat.exists_eq_add_of_le (by omega)
  obtain ⟨more, hmore⟩ := hashGenLoop_add ((l₁ + 31) / 32) k m
  have hcovered : l₁ ≤ (hashGenLoop ((l₁ + 31) / 32) m).length := by rw [hashGenLoop_length]; omega
  simp only [hashGen, bytesOf_toList]
  rw [List.take_take, Nat.min_eq_left h, hk, hmore, List.take_append_of_le_length hcovered]

/-! ### The state after generations -/

/-- Settles O33: all three complete with the same state update, and the outputs are `hash_gen` of the same `V`. -/
theorem stateAfterAGenerationIgnoresItsLength : Obligations.StateAfterAGenerationIgnoresItsLength :=
  fun a b plaintext s hs hk hle =>
    ⟨_, _, _, (hashGen s.v a.toNat).toList, (hashGen s.v b.toNat).toList, execFill_of_seeded a hs, execFill_of_seeded b hs,
      execEncrypt_of_ready plaintext hk hs, rfl, rfl, rfl, rfl, rfl, rfl, hashGenOutputsArePrefixes s.v _ _ hle⟩

/-- The state updates do not look at the response stream (41_drbg_commands R146). -/
theorem iterate_stateUpdate_emit (n : Nat) (bytes : List Byte) (s : State) :
    stateUpdate^[n] (emit bytes s) = emit bytes (stateUpdate^[n] s) :=
  have hcommute : Function.Commute stateUpdate (emit bytes) := fun _ => rfl
  (hcommute.iterate_left n).eq s

/-- A series of fills on a seeded block is as many state updates and some output (41_drbg_commands R144, R145). -/
theorem execAll_fills {s : State} (hs : s.seeded = true) (lengths : List (BitVec 32)) :
    ∃ out, execAll (lengths.map .fill) s = .next (emit out (stateUpdate^[lengths.length] s)) := by
  induction lengths generalizing s with
  | nil => exact ⟨[], by simp [execAll, emit]⟩
  | cons length lengths ih =>
    have hfill : exec (.fill length) s = .next (emit (okCode :: (hashGen s.v length.toNat).toList) (stateUpdate s)) :=
      execFill_of_seeded length hs
    obtain ⟨out, hout⟩ := ih (s := emit (okCode :: (hashGen s.v length.toNat).toList) (stateUpdate s)) hs
    refine ⟨okCode :: (hashGen s.v length.toNat).toList ++ out, ?_⟩
    rw [List.map_cons, execAll_cons hfill, hout, iterate_stateUpdate_emit]
    simp only [emit, List.length_cons, Function.iterate_succ_apply, List.append_assoc]

/-- Settles O34: both series are the same number of state updates. -/
theorem generatorSequenceIgnoresLengths : Obligations.GeneratorSequenceIgnoresLengths := by
  intro l₁ l₂ s t u hs hlen ht hu
  obtain ⟨out₁, h₁⟩ := execAll_fills hs l₁
  obtain ⟨out₂, h₂⟩ := execAll_fills hs l₂
  cases h₁.symm.trans ht
  cases h₂.symm.trans hu
  simp only [emit_v, emit_gc, hlen, and_self]

end Sys2Proof.Machine

/-! PROOFS. The other statements of 10_state, 20_memory, 30_encoding and 70_reset_and_hazards: what the host's moves do to a
waiting block (20_memory R51, R53, R62; 70_reset_and_hazards R220), what a command leaves alone (10_state R37), commands beside
the host's moves (20_memory R58; 70_reset_and_hazards R221), repeated commands (20_memory R57) and encodings (30_encoding R82). -/

namespace Sys2Proof.Machine

/-! ### A waiting block -/

theorem step_of_incomplete {s : State} (h : decode s.cmd = .incomplete) : step s = hostMove s := by
  rw [step_eq, if_pos h]

/-- Settles O11: without a move of the host the block stays as it is. -/
theorem incompleteCommandWaits : Obligations.IncompleteCommandWaits :=
  fun _ hwaits hhost => (step_of_incomplete hwaits).trans (hostMove_of_nil hhost)

/-- Settles O12: the move is a send. -/
theorem hostBytesAreAppended : Obligations.HostBytesAreAppended :=
  fun _ _ _ hwaits hhost => (step_of_incomplete hwaits).trans (hostMove_of_send hhost)

/-- The bits of `STATUS` (10_state R30). -/
theorem status_getLsbD (s : State) :
    s.status.getLsbD 0 = s.seeded ∧ s.status.getLsbD 1 = s.keyed ∧ s.status.getLsbD 2 = s.fIllegal ∧
    s.status.getLsbD 3 = s.fNotSeeded ∧ s.status.getLsbD 4 = s.fKeyNotSet ∧ s.status.getLsbD 5 = false ∧
    s.status.getLsbD 6 = false ∧ s.status.getLsbD 7 = false := by
  unfold State.status
  generalize s.seeded = seeded, s.keyed = keyed, s.fIllegal = fIllegal, s.fNotSeeded = fNotSeeded,
    s.fKeyNotSet = fKeyNotSet
  decide +revert

/-- Settles O13: the word recorded is `STATUS`. -/
theorem statusSampleShowsTheFlagsAndChangesNothing : Obligations.StatusSampleShowsTheFlagsAndChangesNothing :=
  fun s _ hwaits hhost => ⟨s.status, (step_of_incomplete hwaits).trans (hostMove_of_sample hhost), status_getLsbD s⟩

/-- `STATUS` of a block just reset (70_reset_and_hazards R220). -/
@[simp] theorem resetBlock_status (s : State) : (resetBlock s).status = 0x00 := by
  simp [State.status]

/-- Settles O15: the move is a reset. -/
theorem resetEventClearsTheBlock : Obligations.ResetEventClearsTheBlock :=
  fun _ _ hwaits hhost => ⟨_, (step_of_incomplete hwaits).trans (hostMove_of_reset hhost), rfl, rfl, resetBlock_status _, rfl,
    rfl, rfl, rfl, rfl⟩

/-! ### What a command leaves alone -/

/-- No command touches the command stream behind it, the host's moves, the samples, the parameter, the count of resets or
`F_ILLEGAL` (10_state R37). -/
theorem exec_frame {i : Instr} {s t : State} (h : exec i s = .next t) :
    t.cmd = s.cmd ∧ t.host = s.host ∧ t.samples = s.samples ∧ t.zSeq = s.zSeq ∧ t.resets = s.resets ∧
      t.fIllegal = s.fIllegal := by
  obtain ⟨_, _, _, -, he⟩ | ⟨_, -, he⟩ | ⟨-, -, he⟩ | ⟨_, -, -, he⟩ | ⟨-, -, _, he⟩ := exec_cases i s
  all_goals
    cases he.symm.trans h
    simp [raise]

/-- `C` and `SEEDED` are written by `SEED` alone (10_state R22, R27, R37). -/
theorem exec_c_seeded {i : Instr} {s t : State} (hi : ∀ e, i ≠ .seed e) (h : exec i s = .next t) :
    t.c = s.c ∧ t.seeded = s.seeded := by
  obtain ⟨e, _, _, rfl, -⟩ | ⟨_, -, he⟩ | ⟨-, -, he⟩ | ⟨_, -, -, he⟩ | ⟨-, -, _, he⟩ := exec_cases i s
  case inl => exact absurd rfl (hi e)
  all_goals
    cases he.symm.trans h
    exact ⟨rfl, rfl⟩

/-- `KS` and `KEYED` are written by `SET_KEY` alone (10_state R26, R28, R37). -/
theorem exec_ks_keyed {i : Instr} {s t : State} (hi : ∀ key, i ≠ .setKey key) (h : exec i s = .next t) :
    t.ks = s.ks ∧ t.keyed = s.keyed := by
  obtain ⟨_, _, _, -, he⟩ | ⟨key, rfl, -⟩ | ⟨-, -, he⟩ | ⟨_, -, -, he⟩ | ⟨-, -, _, he⟩ := exec_cases i s
  case inr.inl => exact absurd rfl (hi key)
  all_goals
    cases he.symm.trans h
    exact ⟨rfl, rfl⟩

/-- Settles O50: the frame of every command, and the cells of the table. -/
theorem commandsWriteOnlyTheirState : Obligations.CommandsWriteOnlyTheirState := by
  intro i s t h
  obtain ⟨hcmd, hhost, hsamples, hz, hresets, hillegal⟩ := exec_frame h
  refine ⟨hcmd, hhost, hsamples, hz, hresets, hillegal, fun hi => exec_c_seeded hi h, fun hi => exec_ks_keyed hi h, ?_⟩
  rintro ⟨key, rfl⟩
  cases h
  exact ⟨rfl, rfl⟩

/-- A command only appends to the response stream (20_memory R52, 30_encoding R80). -/
theorem exec_appends {i : Instr} {s t : State} (h : exec i s = .next t) : ∃ response, t.resp = s.resp ++ response := by
  obtain ⟨status, payload, hresp, -⟩ := exec_status h
  exact ⟨_, hresp⟩

theorem runDecoded_appends {d : Decoded} {s t : State} (h : runDecoded d s = .next t) : ∃ more, t.resp = s.resp ++ more := by
  cases d with
  | command i rest => exact exec_appends (s := consumeTo rest s) h
  | illegal op rest => cases h; exact ⟨[faultCode .illegalCommand], rfl⟩
  | incomplete => cases h; exact ⟨[], (List.append_nil _).symm⟩

/-- What a reset during a command leaves of its response (70_reset_and_hazards R221). -/
theorem cutByReset_resp {before after : State} {response : List Byte} (h : after.resp = before.resp ++ response)
    (emitted : Nat) : (cutByReset emitted before after).resp = before.resp ++ response.take emitted := by
  rw [cutByReset_eq, h]
  exact List.take_length_add_append emitted

/-- A move of the host takes no byte off the response stream (20_memory R52, 70_reset_and_hazards R221). -/
theorem hostMove_appends {s t : State} (h : hostMove s = .next t) : ∃ more, t.resp = s.resp ++ more := by
  cases hhost : s.host with
  | nil => rw [hostMove_of_nil hhost] at h; cases h; exact ⟨[], (List.append_nil _).symm⟩
  | cons move moves =>
    cases move with
    | send bytes => rw [hostMove_of_send hhost] at h; cases h; exact ⟨[], (List.append_nil _).symm⟩
    | sample => rw [hostMove_of_sample hhost] at h; cases h; exact ⟨[], (List.append_nil _).symm⟩
    | reset => rw [hostMove_of_reset hhost] at h; cases h; exact ⟨[], (List.append_nil _).symm⟩
    | resetDuring bytes emitted =>
      obtain ⟨after, hafter⟩ := runDecoded_answers (decode (s.cmd ++ bytes)) (receive bytes { s with host := moves })
      obtain ⟨response, hresponse⟩ := runDecoded_appends hafter
      rw [hostMove_of_resetDuring hhost hafter] at h
      cases h
      exact ⟨_, cutByReset_resp hresponse emitted⟩

/-- Settles O21: a step is a host move or what stands at the head of the stream, and both only append. -/
theorem emittedBytesStayEmitted : Obligations.EmittedBytesStayEmitted := by
  intro s t h
  rw [step_eq] at h
  split at h
  · exact hostMove_appends h
  · exact runDecoded_appends h

/-! ### Commands and the host's moves -/

/-- Settles O16: the move runs the command its bytes complete and cuts what it left. -/
theorem resetDuringACommandCutsTheResponse : Obligations.ResetDuringACommandCutsTheResponse := by
  intro s bytes rest k moves i hwaits hhost hdecode
  obtain ⟨u, hu⟩ := exec_answers i { s with cmd := rest, host := moves }
  obtain ⟨response, hresponse⟩ := exec_appends hu
  obtain ⟨-, huhost, husamples, -⟩ := exec_frame hu
  have hafter : runDecoded (decode (s.cmd ++ bytes)) (receive bytes { s with host := moves }) = .next u := by
    rw [hdecode]
    exact hu
  exact ⟨u, response, _, hu, hresponse, (step_of_incomplete hwaits).trans (hostMove_of_resetDuring hhost hafter),
    cutByReset_resp hresponse k, rfl, rfl, resetBlock_status _, rfl, husamples, huhost⟩

/-- A proper beginning of a command's bytes is an incomplete command: read as anything else, it would be read so with the
missing bytes behind it too (20_memory R51, R62). -/
theorem decode_of_encode_eq_append {i : Instr} {a b : List Byte} (h : encode i = a ++ b) (hb : b ≠ []) :
    decode a = .incomplete := by
  have hwhole : decode (a ++ b) = .command i [] := by
    rw [← h]
    simpa using decode_encode_append i []
  cases hd : decode a with
  | command j rest =>
    have hmore := decodeIgnoresBytesBehindTheCommand.1 a rest b j hd
    obtain ⟨-, hnil⟩ := Decoded.command.inj (hmore.symm.trans hwhole)
    exact absurd (List.append_eq_nil_iff.mp hnil).2 hb
  | illegal op rest =>
    have hmore := decodeIgnoresBytesBehindTheCommand.2 a rest b op hd
    cases hmore.symm.trans hwhole
  | incomplete => rfl

/-- Settles O18: two sends, of which the first leaves an incomplete command, and one execution. -/
theorem commandSentInTwoPiecesExecutesOnce : Obligations.CommandSentInTwoPiecesExecutesOnce := by
  intro s i a b moves hencode hb hcmd hhost
  obtain ⟨t, ht⟩ := exec_answers i { s with host := moves }
  have hfirst : step s = .next { s with cmd := a, host := .send b :: moves } := by
    have hsend := hostBytesAreAppended s a (.send b :: moves) (hcmd ▸ rfl) hhost
    rwa [hcmd] at hsend
  have hsecond : step { s with cmd := a, host := .send b :: moves } = .next { s with cmd := encode i, host := moves } := by
    rw [hencode]
    exact hostBytesAreAppended _ b moves (decode_of_encode_eq_append hencode hb) rfl
  have hthird : step { s with cmd := encode i, host := moves } = .next t := by
    have hdecode : decode (encode i) = .command i [] := by simpa using decode_encode_append i []
    rw [stepExecutesTheDecodedCommand _ i [] hdecode, ← ht, ← hcmd]
  rw [ht, run_succ_of_step hfirst, run_succ_of_step hsecond, run_succ_of_step hthird]
  rfl

/-- A run that answers goes on with a step of what it answers. -/
theorem run_succ_of_run {k : Nat} {s t : State} (h : Host.Core.run Sys2Proof.core k s = .next t) :
    Host.Core.run Sys2Proof.core (k + 1) s = step t := by
  induction k generalizing s with
  | zero =>
    cases h
    obtain ⟨u, hu⟩ := step_answers t
    exact (run_succ_of_step hu 0).trans hu.symm
  | succ k ih =>
    obtain ⟨u, hu⟩ := step_answers s
    rw [run_succ_of_step hu] at h ⊢
    exact ih h

/-- A list of commands answers, and leaves the command stream behind it, the host's moves and the samples as they were
(60_exceptions R190, 10_state R37). -/
theorem execAll_answers (is : List Instr) (s : State) :
    ∃ t, execAll is s = .next t ∧ t.cmd = s.cmd ∧ t.host = s.host ∧ t.samples = s.samples := by
  induction is generalizing s with
  | nil => exact ⟨s, rfl, rfl, rfl, rfl⟩
  | cons i is ih =>
    obtain ⟨u, hu⟩ := exec_answers i s
    obtain ⟨hcmd, hhost, hsamples, -⟩ := exec_frame hu
    obtain ⟨t, ht, hcmd', hhost', hsamples'⟩ := ih u
    exact ⟨t, (execAll_cons hu is).trans ht, hcmd'.trans hcmd, hhost'.trans hhost, hsamples'.trans hsamples⟩

/-- Settles O20: behind the commands the stream is empty, and the next step is the sample. -/
theorem sampleSeesExactlyTheEarlierCommands : Obligations.SampleSeesExactlyTheEarlierCommands := by
  intro is moves s hcmd hhost
  obtain ⟨t, ht, htcmd, hthost, htsamples⟩ := execAll_answers is { s with cmd := [] }
  have hrun : Host.Core.run Sys2Proof.core is.length s = .next t :=
    (commandsExecuteInStreamOrder is [] s (by rw [hcmd, List.append_nil])).trans ht
  have hwaits : decode t.cmd = .incomplete := by rw [htcmd]; rfl
  have hsample : step t = .next (sampleStatus { t with host := moves }) :=
    (step_of_incomplete hwaits).trans (hostMove_of_sample (hthost.trans hhost))
  refine ⟨t, ht, ?_⟩
  rw [run_succ_of_run hrun, hsample, ← htsamples]
  rfl

/-! ### Repeated commands -/

/-- Settles O35: the second command writes the values of the first again. -/
theorem seedAndSetKeyAreIdempotent : Obligations.SeedAndSetKeyAreIdempotent :=
  ⟨fun _ _ => ⟨_, rfl, rfl⟩, fun _ _ => ⟨_, rfl, rfl⟩⟩

/-! ### Worked encodings -/

/-- Settles O6, by computing the five encodings. -/
theorem workedEncodings : Obligations.WorkedEncodings := by
  unfold Obligations.WorkedEncodings
  decide

end Sys2Proof.Machine
